-- ==== Sys2Proof/Word.lean ====
section
/-! DEFINITION. The machine's word: one signed 64-bit two's-complement integer (R6 WORD_BITS, R7, R32).
Every arithmetic rule of the spec works on the exact integer a word stands for, so the word type carries no
arithmetic of its own: its value is `BitVec.toInt`, and a result comes back through a range test
(`inI64`, `toWord?` of Machine/Ops.lean). -/

namespace Sys2Proof

/-- A memory cell's content, a parameter, a port value and RB: an element of i64 (R7, R32). -/
abbrev Word := BitVec 64

end Sys2Proof
end

