-- ==== Sys2Proof/Config.lean ====
section
/-! DEFINITION. The implementation parameters of R6. WORD_BITS is `Word`'s width. The growth factor, the fetch
span and the parameter count are fixed by the spec. MAX_CAPACITY is the one OPEN parameter (R6, D6): it is a value of
`Config`, held by State and changed by no step, so a statement about every state is a statement about every
MAX_CAPACITY. The spec leaves no result open ("No behaviour of this machine is treated as "any value" for a computed
result", 93_implementation_defined.md), so there is no free value here. -/

namespace Sys2Proof

/-- The open parameter of one implementation (R6). -/
structure Config where
  /-- MAX_CAPACITY in words; `none` is `inf` (R6, D6). -/
  maxCapacity : Option Nat
deriving DecidableEq, Repr

/-- Growth factor of the memory controller (R6). -/
def growthFactor : Nat := 2

/-- MAX_PARAMS (R6, R56): also the span the fetch asks for beyond PC (R41(a), D24). -/
def maxParams : Nat := 3

end Sys2Proof
end

