-- ==== Sys2Proof/Syntax.lean ====
section
/-! DEFINITION. The instruction set as syntax: ten operations, three addressing modes, operands that pair a mode with
the raw parameter word (R52, R54, R56, R58, R60). One constructor of `Instr` per row of spec/opcode_table.json. -/

namespace Sys2Proof

/-- The addressing modes of R58. -/
inductive Mode where
  /-- digit 0: "parameter is an address" -/
  | position
  /-- digit 1: "parameter is the value" -/
  | immediate
  /-- digit 2: "parameter is an offset added to Relative Base to form an address" -/
  | relative
deriving DecidableEq, Repr

/-- One parameter of an instruction: its mode digit and the raw word of its slot (R52, R54, R58). -/
structure Operand where
  mode : Mode
  raw : Word
deriving DecidableEq, Repr

/-- The operations of R56, as the operation selector names them. -/
inductive Op where
  | add | mul | inp | out | jt | jf | lt | eq | arb | hlt
deriving DecidableEq, Repr

/-- The instructions of R56 with their parameters in order (R60). Unused mode digits are no part of an instruction:
they are checked by the decoder and then dropped (R59, R65). -/
inductive Instr where
  /-- op 1, `add`: read, read, write (R86) -/
  | add (a b dst : Operand)
  /-- op 2, `mul`: read, read, write (R87) -/
  | mul (a b dst : Operand)
  /-- op 3, `in`: write (R89) -/
  | inp (dst : Operand)
  /-- op 4, `out`: read (R90) -/
  | out (src : Operand)
  /-- op 5, `jt`: read the tested value, read the target (R91) -/
  | jt (cond target : Operand)
  /-- op 6, `jf`: read the tested value, read the target (R92) -/
  | jf (cond target : Operand)
  /-- op 7, `lt`: read, read, write (R94) -/
  | lt (a b dst : Operand)
  /-- op 8, `eq`: read, read, write (R95) -/
  | eq (a b dst : Operand)
  /-- op 9, `arb`: read (R97) -/
  | arb (delta : Operand)
  /-- op 99, `hlt`: no parameter (R99) -/
  | hlt
deriving DecidableEq, Repr

/-- The operation of an instruction. -/
def Instr.op : Instr → Op
  | .add _ _ _ => .add
  | .mul _ _ _ => .mul
  | .inp _ => .inp
  | .out _ => .out
  | .jt _ _ => .jt
  | .jf _ _ => .jf
  | .lt _ _ _ => .lt
  | .eq _ _ _ => .eq
  | .arb _ => .arb
  | .hlt => .hlt

/-- The parameters of an instruction, in slot order (R52, R60). -/
def Instr.operands : Instr → List Operand
  | .add a b d => [a, b, d]
  | .mul a b d => [a, b, d]
  | .inp d => [d]
  | .out a => [a]
  | .jt c t => [c, t]
  | .jf c t => [c, t]
  | .lt a b d => [a, b, d]
  | .eq a b d => [a, b, d]
  | .arb a => [a]
  | .hlt => []

end Sys2Proof
end

