-- ==== Sys2Proof/WellFormed.lean ====
section
/-! DEFINITION. Which instructions the encoding has. Every mode and every raw parameter is legal on a read operand
(R54, R58), and a write operand never has immediate mode (R58, R60, R61). -/

namespace Sys2Proof

/-- The write operand of an instruction, if it has one (R60). -/
def Instr.writeOperand : Instr → Option Operand
  | .add _ _ d => some d
  | .mul _ _ d => some d
  | .inp d => some d
  | .out _ => none
  | .jt _ _ => none
  | .jf _ _ => none
  | .lt _ _ d => some d
  | .eq _ _ d => some d
  | .arb _ => none
  | .hlt => none

/-- A mode that R58 allows for a write operand. -/
def Mode.writable : Mode → Bool
  | .position => true
  | .immediate => false
  | .relative => true

/-- The instruction has an encoding: its write operand, if any, is not immediate (R61). -/
def Instr.wellFormed (i : Instr) : Bool :=
  match i.writeOperand with
  | some d => d.mode.writable
  | none => true

end Sys2Proof
end

