-- ==== Sys2Proof/Decode.lean ====
section
/-! DEFINITION. The decoder of R62 (decimal digit fields, R8, R53; the operation table, R56; the mode digits, R58, R59;
the write check, R61), total on every word, and the encoder of R64. -/

namespace Sys2Proof

/-! ### Decimal digits -/

/-- `digit_k(w) = (w div 10^k) mod 10`, for w >= 0 (R8). -/
def digit (k w : Nat) : Nat := w / 10 ^ k % 10

/-! ### The operation table (R56, R60) -/

/-- The value of `w mod 100` that selects the operation (R56). -/
def Op.code : Op → Nat
  | .add => 1
  | .mul => 2
  | .inp => 3
  | .out => 4
  | .jt => 5
  | .jf => 6
  | .lt => 7
  | .eq => 8
  | .arb => 9
  | .hlt => 99

/-- The operation that `w mod 100` selects; every other value is illegal (R56, R57). -/
def Op.ofCode : Nat → Option Op
  | 1 => some .add
  | 2 => some .mul
  | 3 => some .inp
  | 4 => some .out
  | 5 => some .jt
  | 6 => some .jf
  | 7 => some .lt
  | 8 => some .eq
  | 9 => some .arb
  | 99 => some .hlt
  | _ => none

/-- LEN[op], in words (R56, R63). -/
def Op.length : Op → Nat
  | .add => 4
  | .mul => 4
  | .inp => 2
  | .out => 2
  | .jt => 3
  | .jf => 3
  | .lt => 4
  | .eq => 4
  | .arb => 2
  | .hlt => 1

/-- WRITE_INDEX[op], the index of the write operand (R60). -/
def Op.writeIndex : Op → Option (Fin 3)
  | .add => some 2
  | .mul => some 2
  | .inp => some 0
  | .out => none
  | .jt => none
  | .jf => none
  | .lt => some 2
  | .eq => some 2
  | .arb => none
  | .hlt => none

/-- The length of an instruction depends on its operation alone (R63). -/
def Instr.length (i : Instr) : Nat := i.op.length

/-! ### Mode digits (R58) -/

/-- The mode a digit selects; 3 to 9 are illegal (R58, R59). -/
def Mode.ofDigit : Nat → Option Mode
  | 0 => some .position
  | 1 => some .immediate
  | 2 => some .relative
  | _ => none

/-- The digit of a mode (R58). -/
def Mode.digit : Mode → Nat
  | .position => 0
  | .immediate => 1
  | .relative => 2

/-! ### The decoder (R62) -/

/-- Why decode raises a fault, with the record fields R102 gives the cause. -/
inductive DecodeError where
  /-- w < 0, or the operation is not in the table (R55, R57) -/
  | illegalOperation
  /-- the mode digit of parameter `param` is `value`, not 0, 1 or 2 (R59) -/
  | illegalMode (param : Fin 3) (value : Nat)
  /-- the write operand `param` is in immediate mode (R61) -/
  | immediateWrite (param : Fin 3)
deriving DecidableEq, Repr

/-- What decode returns for a legal word: the operation and the three modes (R62). -/
structure Header where
  op : Op
  a : Mode
  b : Mode
  c : Mode
deriving DecidableEq, Repr

/-- The mode of parameter `i`. -/
def Header.mode (h : Header) : Fin 3 → Mode
  | 0 => h.a
  | 1 => h.b
  | 2 => h.c

/-- The check of the mode digit of parameter `i`, digit i + 2 of the word (R59). -/
def decodeMode (i : Fin 3) (w : Nat) : Except DecodeError Mode :=
  match Mode.ofDigit (digit (i.val + 2) w) with
  | some m => .ok m
  | none => .error (.illegalMode i (digit (i.val + 2) w))

/-- The check of the write operand's mode (R61). -/
def checkWriteMode (h : Header) : Except DecodeError Header :=
  match h.op.writeIndex with
  | none => .ok h
  | some j => if h.mode j = .immediate then .error (.immediateWrite j) else .ok h

/-- `Decode(w)` of R62, in the order written there: the sign, the operation, the mode digits of parameters 0, 1, 2,
then the write operand's mode. It reads only `w`, and no digit at 10^5 or above (R53). -/
def decodeHeader (w : Word) : Except DecodeError Header :=
  if w.toInt < 0 then .error .illegalOperation
  else
    match Op.ofCode (w.toInt.toNat % 100) with
    | none => .error .illegalOperation
    | some op =>
      match decodeMode 0 w.toInt.toNat with
      | .error e => .error e
      | .ok a =>
        match decodeMode 1 w.toInt.toNat with
        | .error e => .error e
        | .ok b =>
          match decodeMode 2 w.toInt.toNat with
          | .error e => .error e
          | .ok c => checkWriteMode ⟨op, a, b, c⟩

/-- The instruction a header stands for, given the raw words of the three slots; a slot the operation has no parameter
for is dropped (R52, R65). -/
def Header.build (h : Header) (p0 p1 p2 : Word) : Instr :=
  match h.op with
  | .add => .add ⟨h.a, p0⟩ ⟨h.b, p1⟩ ⟨h.c, p2⟩
  | .mul => .mul ⟨h.a, p0⟩ ⟨h.b, p1⟩ ⟨h.c, p2⟩
  | .inp => .inp ⟨h.a, p0⟩
  | .out => .out ⟨h.a, p0⟩
  | .jt => .jt ⟨h.a, p0⟩ ⟨h.b, p1⟩
  | .jf => .jf ⟨h.a, p0⟩ ⟨h.b, p1⟩
  | .lt => .lt ⟨h.a, p0⟩ ⟨h.b, p1⟩ ⟨h.c, p2⟩
  | .eq => .eq ⟨h.a, p0⟩ ⟨h.b, p1⟩ ⟨h.c, p2⟩
  | .arb => .arb ⟨h.a, p0⟩
  | .hlt => .hlt

/-- The instruction that starts with the word `w` followed by the words `p0`, `p1`, `p2` (R52, R62). -/
def decode (w p0 p1 p2 : Word) : Except DecodeError Instr :=
  match decodeHeader w with
  | .error e => .error e
  | .ok h => .ok (h.build p0 p1 p2)

/-- Decoding from a list of words; beyond its end every word is 0, as memory beyond its end reads (R34). -/
def decodeList (ws : List Word) : Except DecodeError Instr :=
  decode (ws.getD 0 0) (ws.getD 1 0) (ws.getD 2 0) (ws.getD 3 0)

/-! ### The encoder (R64) -/

/-- The mode of parameter `k`; 0 for a parameter the instruction does not have (R64). -/
def Instr.modeDigit (i : Instr) (k : Nat) : Nat :=
  match i.operands[k]? with
  | some o => o.mode.digit
  | none => 0

/-- The canonical instruction word, as a number: op + 100*mA + 1000*mB + 10000*mC (R64). -/
def Instr.canonical (i : Instr) : Nat :=
  i.op.code + 100 * i.modeDigit 0 + 1000 * i.modeDigit 1 + 10000 * i.modeDigit 2

/-- An instruction assembles to its canonical word followed by the raw parameters (R64, R66). -/
def encode (i : Instr) : List Word :=
  BitVec.ofNat 64 i.canonical :: i.operands.map Operand.raw

/-! ### The opcode table's numbering of an instruction's bits -/

/-- Word `k` of an instruction whose bits are numbered from the first word's least significant bit on, 64 to a word. -/
def tableWord (w k : Nat) : Word := BitVec.ofNat 64 (w / 2 ^ (64 * k))

/-- The four words that the numbered bits `w` give, every bit at `nbits` and above being 0. -/
def tableWords (nbits w : Nat) : List Word :=
  [tableWord (w % 2 ^ nbits) 0, tableWord (w % 2 ^ nbits) 1, tableWord (w % 2 ^ nbits) 2, tableWord (w % 2 ^ nbits) 3]

/-- The instruction the decoder reads from an instruction whose bits are `w`; `none` where it refuses. A word has no
bytes and so no byte order (R43): the words stand one after another. -/
def decodeTableWord (nbits w : Nat) : Option Instr :=
  match decodeList (tableWords nbits w) with
  | .ok i => some i
  | .error _ => none

end Sys2Proof
end

