-- ==== Sys2Proof/Machine/State.lean ====
section
/-! DEFINITION. The state of one VM instance (R13, R20) and of its environment's side of the port and channels
(R26, R110 to R113), as plain data, and the state after reset (R28, R122). -/

namespace Sys2Proof.Machine

/-- RUN (R13, R19). -/
inductive RunState where
  | running
  | halted
  | faulted
deriving DecidableEq, Repr

/-- The fault causes of R102. -/
inductive Cause where
  | none
  | illegalOperation
  | illegalMode
  | immediateWrite
  | negativeAddress
  | arithmeticOverflow
  | capacityExhausted
deriving DecidableEq, Repr

/-- The numeric codes of R102. -/
def Cause.code : Cause → Nat
  | .none => 0
  | .illegalOperation => 1
  | .illegalMode => 2
  | .immediateWrite => 3
  | .negativeAddress => 4
  | .arithmeticOverflow => 5
  | .capacityExhausted => 6

/-- FAULT.param when it is not NONE: a parameter index, or FETCH (R20). -/
inductive FaultParam where
  | index (i : Fin 3)
  | fetch
deriving DecidableEq, Repr

/-- The fault record FAULT (R20); `none` is NONE. -/
structure FaultRecord where
  cause : Cause
  pc : Option Int
  word : Option Word
  param : Option FaultParam
  value : Option Int
deriving DecidableEq, Repr

/-- Every field NONE, cause code 0: FAULT at reset (R20, R122). -/
def FaultRecord.clear : FaultRecord :=
  { cause := .none, pc := none, word := none, param := none, value := none }

/-- A message of the worker-to-host channel: Data or Exit (R111, R112). -/
inductive Message where
  | data (v : Word)
  | exit
deriving DecidableEq, Repr

/-- The memory's cells: the cells that do not read 0, by address. Canonical form: addresses strictly rising, no cell
that reads 0 (what an unlisted address reads as, R34). -/
abbrev Memory := List (Nat × Word)

/-- One VM instance (R13) with its environment's state (R26) and its parameter (R6). -/
structure State where
  /-- MEM: the cells of 0..CAP-1 that are not 0 (R13, R33) -/
  mem : Memory
  /-- CAP: how many cells the controller holds (R33) -/
  cap : Nat
  /-- PC: an integer of Z (R15) -/
  pc : Int
  /-- RB: signed 64-bit (R18) -/
  rb : Word
  /-- RUN (R19) -/
  run : RunState
  /-- FAULT (R20) -/
  fault : FaultRecord
  /-- environment: the host-to-worker channel, Data only, oldest first (R26, R109, R111) -/
  inQ : List Word
  /-- environment: the worker-to-host channel, oldest first (R26, R110, R111) -/
  outQ : List Message
  /-- environment: OUTPUT's acceptance condition at this moment (R6, R110) -/
  outReady : Bool
  /-- environment: the host's cached "exited" flag (R26, R113) -/
  exited : Bool
  /-- parameter: MAX_CAPACITY (R6, D6) -/
  cfg : Config
deriving DecidableEq, Repr

/-- The reasons `step` may answer `.fault`: there are none. Every fault of this machine has an entry that the spec
describes (R103: the record is written, RUN becomes Faulted), so the model takes it as a next state; no meaning raises
a reason of this type, which is safe. -/
inductive Fault where
deriving DecidableEq, Repr

/-- The reasons `step` may answer `.refused`. -/
inductive Refusal where
  /-- Raised by exec's arm of an instruction without a meaning; safe. No arm of this model raises it. -/
  | notModelled (mnemonic : String)
deriving DecidableEq, Repr

/-- The state right after reset (R28, R121, R122). Reset is program load; this is the load of ONE word, 0, the least
program a load may hold (D3), with MAX_CAPACITY = inf. DESIGN CHOICE (logs 2 and 4): the spec gives every value but
the program's words, their number and MAX_CAPACITY. -/
def State.reset : State :=
  { mem := []
    cap := 1
    pc := 0
    rb := 0
    run := .running
    fault := .clear
    inQ := []
    outQ := []
    outReady := true
    exited := false
    cfg := { maxCapacity := none } }

end Sys2Proof.Machine
end

