-- ==== Sys2Proof/Machine/Ops.lean ====
section
/-! DEFINITION. The primitives of R9: the memory controller (R33 to R39), the range test of results (R7, R88), fault
entry (R103), the port transactions (R109, R110) and the PC update (R78). Fault entry is the machine's one way of
taking an exception; there is no return from one (R106). -/

namespace Sys2Proof.Machine

/-! ### The memory's cells -/

namespace Memory

/-- What the cell list holds at an address; an unlisted address holds 0 (R34). -/
def get : Memory → Nat → Word
  | [], _ => 0
  | (b, v) :: m, a => if a = b then v else get m a

/-- The cell to put in front of a list, left out when it is 0 (what an unlisted address reads as). -/
def consCell (a : Nat) (v : Word) (m : Memory) : Memory := if v = 0 then m else (a, v) :: m

/-- `mem[a] <- v`, keeping the canonical form (R39). -/
def set : Memory → Nat → Word → Memory
  | [], a, v => consCell a v []
  | (b, x) :: m, a, v =>
    if a < b then consCell a v ((b, x) :: m)
    else if a = b then consCell a v m
    else (b, x) :: set m a v

/-- `for a in lo..hi-1: mem[a] <- 0` (R35, R36). -/
def zeroFill (m : Memory) (lo hi : Nat) : Memory :=
  m.filter fun c => decide (c.1 < lo ∨ hi ≤ c.1)

/-- The cells of a list of words laid out from address `a` on (R121, R123). -/
def ofWords (a : Nat) : List Word → Memory
  | [] => []
  | w :: ws => consCell a w (ofWords (a + 1) ws)

/-- The canonical form: every address is at least `lo`, addresses strictly rise, no cell holds 0. -/
def wfFrom (lo : Nat) : Memory → Bool
  | [] => true
  | (a, v) :: m => decide (lo ≤ a) && decide (v ≠ 0) && wfFrom (a + 1) m

/-- The memory is in canonical form. -/
def wf (m : Memory) : Bool := wfFrom 0 m

/-- Every listed cell is one of 0..cap-1 (R33). -/
def below (cap : Nat) (m : Memory) : Bool := m.all fun c => decide (c.1 < cap)

end Memory

/-! ### Capacity (R33 to R36) -/

/-- The loop of R36: double until the capacity exceeds the requested address. `fuel` bounds the passes. -/
def doubleUntil : Nat → Nat → Nat → Nat
  | 0, c, _ => c
  | fuel + 1, c, n => if c ≤ n then doubleUntil fuel (growthFactor * c) n else c

/-- The capacity that `EnsureCapacity(n)` reaches from capacity `c` (R36). For c >= 1, log2 n + 1 doublings are
enough. DESIGN CHOICE (log 14): for c = 0, which R33 excludes, it stays 0. -/
def growTo (c n : Nat) : Nat := doubleUntil (n.log2 + 1) c n

/-- The value a program observes at address `a`: mem[a] if a < CAP, and 0 otherwise (R34); `MemRead(a, 1)` (R38). -/
def State.read (s : State) (a : Nat) : Word := if a < s.cap then Memory.get s.mem a else 0

/-- `MemWrite(a, 1, v)` (R39). -/
def State.write (s : State) (a : Nat) (v : Word) : State := { s with mem := Memory.set s.mem a v }

/-- Growth to the capacity that covers address `n`: new cells are zero-filled, old cells stay (R35, R36). Where no
growth is needed the filled range is empty. -/
def State.grow (s : State) (n : Nat) : State :=
  { s with mem := Memory.zeroFill s.mem s.cap (growTo s.cap n), cap := growTo s.cap n }

/-- The growth for address `n` does not pass MAX_CAPACITY (R36). -/
def State.fits (s : State) (n : Nat) : Bool :=
  match s.cfg.maxCapacity with
  | none => true
  | some m => decide (growTo s.cap n ≤ m)

/-- `EnsureCapacity(n)` (R36); `none` where it raises CAPACITY_EXHAUSTED, and then nothing has changed. -/
def ensureCapacity (n : Nat) (s : State) : Option State :=
  if s.fits n then some (s.grow n) else none

/-! ### Results (R7, R88) -/

/-- `in_i64(v)` (R7). -/
def inI64 (v : Int) : Bool := decide (-2 ^ 63 ≤ v) && decide (v < 2 ^ 63)

/-- The word of an exact result, `none` when the result is outside i64 (R88). -/
def toWord? (v : Int) : Option Word := if inI64 v then some (BitVec.ofInt 64 v) else none

/-! ### Fault entry (R103) -/

/-- `raise Fault(CAUSE, info)` (R103): the record is written and RUN becomes Faulted. Nothing else changes, and no
handler is entered. -/
def raise (cause : Cause) (word : Option Word) (param : Option FaultParam) (value : Option Int) (s : State) : State :=
  { s with
    fault := { cause := cause, pc := some s.pc, word := word, param := param, value := value }
    run := .faulted }

/-- The instruction word of the step: the word at PC, which no step writes before it could fault (R77, R82). -/
def State.instrWord (s : State) : Word := s.read s.pc.toNat

/-- Fault entry for a word that decode rejects, with the record fields of R102. -/
def raiseDecode (e : DecodeError) (s : State) : State :=
  match e with
  | .illegalOperation => raise .illegalOperation (some s.instrWord) none none s
  | .illegalMode i d => raise .illegalMode (some s.instrWord) (some (.index i)) (some (d : Int)) s
  | .immediateWrite i => raise .immediateWrite (some s.instrWord) (some (.index i)) none s

/-! ### Phases -/

/-- How a phase of a step ends (R72): with a result and the state so far, or at a fault whose entry is done. -/
inductive Phase (α : Type) where
  | ok (a : α) (s : State)
  | stopped (s : State)
deriving DecidableEq, Repr

/-- One phase after another; a fault ends the step at once (R9). -/
def Phase.bind {α β : Type} (p : Phase α) (k : α → State → Phase β) : Phase β :=
  match p with
  | .ok a s => k a s
  | .stopped s => .stopped s

/-- The checks of an address: `CheckAddr(a)` (R37), then `EnsureCapacity(n)` (R36) for the address `n` to be covered
(`a` itself, or PC + 3 for the fetch). The record names the parameter and the address that failed. -/
def checkReach (word : Option Word) (param : FaultParam) (a : Int) (n : Int) (s : State) : Phase Unit :=
  if a < 0 then .stopped (raise .negativeAddress word (some param) (some a) s)
  else
    match ensureCapacity n.toNat s with
    | none => .stopped (raise .capacityExhausted word (some param) (some n) s)
    | some t => .ok () t

/-- The checks of phase F: `CheckAddr(PC)`, then `EnsureCapacity(PC + 3)` (R41(a), R73). -/
def checkFetch (s : State) : Phase Unit := checkReach none .fetch s.pc (s.pc + maxParams) s

/-! ### The ports (R109, R110) and the PC (R78) -/

/-- `PortRead()`: the oldest value of the input channel, consumed; `none` while there is none (R109). -/
def portRead (s : State) : Option (Word × State) :=
  match s.inQ with
  | [] => none
  | x :: q => some (x, { s with inQ := q })

/-- `PortWrite(v)`: Data(v) is appended to the output channel; `none` while the environment does not accept (R110). -/
def portWrite (v : Word) (s : State) : Option State :=
  if s.outReady then some { s with outQ := s.outQ ++ [.data v] } else none

/-- `PC <- PC + len` (R78). -/
def advance (len : Nat) (s : State) : State := { s with pc := s.pc + len }

/-- `PC <- target`, a taken jump's target (R78). -/
def jumpTo (target : Word) (s : State) : State := { s with pc := target.toInt }

/-- `RB <- r` (R97). -/
def setRb (r : Word) (s : State) : State := { s with rb := r }

/-- `RUN <- Halted`, with the one Exit message that the port sends at halt, after every Data message (R99, R112).
DEDUCED (log 9): Exit is sent in the same step. -/
def halt (s : State) : State := { s with run := .halted, outQ := s.outQ ++ [.exit] }

end Sys2Proof.Machine
end

