-- ==== Sys2Proof/Machine/Operands.lean ====
section
/-! DEFINITION. Operands: effective addresses and their checks (phase A, R74, R75), read operands' values (phase V, R76),
and the phases F, A of the four operand shapes of R60. -/

namespace Sys2Proof.Machine

/-- `Resolve(i, mode)` of R74: the effective address of parameter `i`, an exact integer. -/
def State.ea (s : State) (i : Fin 3) (o : Operand) : Int :=
  match o.mode with
  | .position => o.raw.toInt
  | .immediate => s.pc + 1 + (i.val : Int)
  | .relative => s.rb.toInt + o.raw.toInt

/-- The value of a read operand whose address is `a` (R76). An immediate operand's value is "the raw parameter itself"
(R74), which its slot holds (log 12). -/
def State.operandValue (s : State) (o : Operand) (a : Nat) : Word :=
  match o.mode with
  | .position => s.read a
  | .immediate => o.raw
  | .relative => s.read a

/-- Phase A for one parameter: `ea[i] <- Resolve(i, m[i])`, `CheckAddr(ea[i])`, `EnsureCapacity(ea[i])` (R72, R75). -/
def resolve (i : Fin 3) (o : Operand) (s : State) : Phase Nat :=
  (checkReach (some s.instrWord) (.index i) (s.ea i o) (s.ea i o) s).bind fun _ t => .ok (s.ea i o).toNat t

/-- The decode check of the write operand at index `i` (R61). Decode never lets an immediate one through, so no step
stops here; DESIGN CHOICE (log 13) for a term that WellFormed refuses. -/
def checkWrite (i : Fin 3) (o : Operand) (s : State) : Phase Unit :=
  if o.mode.writable then .ok () s else .stopped (raiseDecode (.immediateWrite i) s)

/-- Phases F and A of add, mul, lt, eq: read, read, write (R60). -/
def phasesRRW (a b d : Operand) (s : State) : Phase (Nat × Nat × Nat) :=
  (checkFetch s).bind fun _ s0 =>
  (checkWrite 2 d s0).bind fun _ s0 =>
  (resolve 0 a s0).bind fun x s1 =>
  (resolve 1 b s1).bind fun y s2 =>
  (resolve 2 d s2).bind fun z s3 =>
  .ok (x, y, z) s3

/-- Phases F and A of jt, jf: read, read (R60). -/
def phasesRR (a b : Operand) (s : State) : Phase (Nat × Nat) :=
  (checkFetch s).bind fun _ s0 =>
  (resolve 0 a s0).bind fun x s1 =>
  (resolve 1 b s1).bind fun y s2 =>
  .ok (x, y) s2

/-- Phases F and A of out, arb: read (R60). -/
def phasesR (a : Operand) (s : State) : Phase Nat :=
  (checkFetch s).bind fun _ s0 => resolve 0 a s0

/-- Phases F and A of in: write (R60). -/
def phasesW (d : Operand) (s : State) : Phase Nat :=
  (checkFetch s).bind fun _ s0 =>
  (checkWrite 0 d s0).bind fun _ s0 =>
  resolve 0 d s0

end Sys2Proof.Machine
end

