-- ==== Sys2Proof/Machine/Flags.lean ====
section
/-! DEFINITION. What other machines put in flags. This machine has no flags and no condition codes (R14), and no
instruction writes one (R85): a comparison's truth is a word in memory (R94 to R96), and a jump tests a word
(R91, R92). -/

namespace Sys2Proof.Machine

/-- The boolean convention of R96: exactly 1 for true and 0 for false. -/
def boolWord (b : Bool) : Word := if b then 1 else 0

/-- `v[0] < v[1]`, signed (R94, R96). -/
def lessThan (x y : Word) : Bool := decide (x.toInt < y.toInt)

/-- `v[0] = v[1]` (R95). -/
def equalTo (x y : Word) : Bool := decide (x.toInt = y.toInt)

/-- A jump reads any nonzero value as true, negative values included (R91, R96, D10). -/
def isTrue (x : Word) : Bool := decide (x.toInt ≠ 0)

end Sys2Proof.Machine
end

