-- ==== Sys2Proof/Machine/Arithmetic.lean ====
section
/-! DEFINITION. Phase X of add and mul (41_arithmetic.md, R86 to R88). -/

namespace Sys2Proof.Machine

/-- Phase X shared by add and mul: the exact result, ARITHMETIC_OVERFLOW when it is outside i64, else the write and
the PC update (R77, R86, R87). -/
def arithmetic (f : Int → Int → Int) (a b d : Operand) (s : State) : Host.Outcome State Fault Refusal :=
  match phasesRRW a b d s with
  | .stopped t => .next t
  | .ok (x, y, z) t =>
    match toWord? (f (t.operandValue a x).toInt (t.operandValue b y).toInt) with
    | none =>
      .next (raise .arithmeticOverflow (some t.instrWord) none
        (some (f (t.operandValue a x).toInt (t.operandValue b y).toInt)) t)
    | some r => .next (advance 4 (t.write z r))

/-- `add` (R86). -/
def execAdd (a b d : Operand) (s : State) : Host.Outcome State Fault Refusal :=
  arithmetic (fun x y => x + y) a b d s

/-- `mul` (R87). -/
def execMul (a b d : Operand) (s : State) : Host.Outcome State Fault Refusal :=
  arithmetic (fun x y => x * y) a b d s

end Sys2Proof.Machine
end

