-- ==== Sys2Proof/Machine/Compare.lean ====
section
/-! DEFINITION. Phase X of lt and eq (44_compare.md, R94 to R96). -/

namespace Sys2Proof.Machine

/-- Phase X shared by lt and eq: write exactly 1 or 0 (R96). -/
def comparison (test : Word → Word → Bool) (a b d : Operand) (s : State) : Host.Outcome State Fault Refusal :=
  match phasesRRW a b d s with
  | .stopped t => .next t
  | .ok (x, y, z) t =>
    .next (advance 4 (t.write z (boolWord (test (t.operandValue a x) (t.operandValue b y)))))

/-- `lt` (R94). -/
def execLt (a b d : Operand) (s : State) : Host.Outcome State Fault Refusal :=
  comparison lessThan a b d s

/-- `eq` (R95). -/
def execEq (a b d : Operand) (s : State) : Host.Outcome State Fault Refusal :=
  comparison equalTo a b d s

end Sys2Proof.Machine
end

