-- ==== Sys2Proof/Machine/Control.lean ====
section
/-! DEFINITION. Phase X of jt and jf (43_control.md, R91 to R93). -/

namespace Sys2Proof.Machine

/-- Phase X shared by jt and jf: PC becomes the second operand's value when the first is `taken`, else it advances
(R78, R91, R92). -/
def branch (taken : Word → Bool) (c tgt : Operand) (s : State) : Host.Outcome State Fault Refusal :=
  match phasesRR c tgt s with
  | .stopped t => .next t
  | .ok (x, y) t =>
    if taken (t.operandValue c x) then .next (jumpTo (t.operandValue tgt y) t) else .next (advance 3 t)

/-- `jt` (R91). -/
def execJt (c tgt : Operand) (s : State) : Host.Outcome State Fault Refusal :=
  branch isTrue c tgt s

/-- `jf` (R92). -/
def execJf (c tgt : Operand) (s : State) : Host.Outcome State Fault Refusal :=
  branch (fun x => !isTrue x) c tgt s

end Sys2Proof.Machine
end

