-- ==== Sys2Proof/Machine/Halt.lean ====
section
/-! DEFINITION. Phase X of hlt (46_halt.md, R99, R100). -/

namespace Sys2Proof.Machine

/-- `hlt` (R99): RUN becomes Halted and the environment sends Exit (R112). PC and RB stay; phase F may have grown
memory (R73). -/
def execHlt (s : State) : Host.Outcome State Fault Refusal :=
  match checkFetch s with
  | .stopped t => .next t
  | .ok _ t => .next (halt t)

end Sys2Proof.Machine
end

