-- ==== Sys2Proof/Machine/InputOutput.lean ====
section
/-! DEFINITION. Phase X of in and out (42_io.md, R89, R90). A step that must wait is not enabled and changes nothing
(R71, R81): it answers the state it started from, without the growth of phases F and A (log 6). -/

namespace Sys2Proof.Machine

/-- `in` (R89). -/
def execInp (d : Operand) (s : State) : Host.Outcome State Fault Refusal :=
  match phasesW d s with
  | .stopped t => .next t
  | .ok z t =>
    match portRead t with
    | none => .next s
    | some (x, u) => .next (advance 2 (u.write z x))

/-- `out` (R90). -/
def execOut (a : Operand) (s : State) : Host.Outcome State Fault Refusal :=
  match phasesR a s with
  | .stopped t => .next t
  | .ok x t =>
    match portWrite (t.operandValue a x) t with
    | none => .next s
    | some u => .next (advance 2 u)

end Sys2Proof.Machine
end

