-- ==== Sys2Proof/Machine/RelativeBase.lean ====
section
/-! DEFINITION. Phase X of arb (45_relative_base.md, R97, R98). -/

namespace Sys2Proof.Machine

/-- `arb` (R97): the exact sum RB + v[0], ARITHMETIC_OVERFLOW when it is outside i64, else RB and the PC update. -/
def execArb (a : Operand) (s : State) : Host.Outcome State Fault Refusal :=
  match phasesR a s with
  | .stopped t => .next t
  | .ok x t =>
    match toWord? (t.rb.toInt + (t.operandValue a x).toInt) with
    | none =>
      .next (raise .arithmeticOverflow (some t.instrWord) none
        (some (t.rb.toInt + (t.operandValue a x).toInt)) t)
    | some r => .next (advance 2 (setRb r t))

end Sys2Proof.Machine
end

