-- ==== Sys2Proof/Machine/Fetch.lean ====
section
/-! DEFINITION. Phase F of a step: fetch and decode (R72, R73, R62). -/

namespace Sys2Proof.Machine

/-- Decoding at PC, from live memory (R50): the instruction word at PC and the three slots after it, which the fetch's
EnsureCapacity covers (R73). -/
def State.decodeAt (s : State) : Except DecodeError Instr :=
  decode s.instrWord (s.read (s.pc.toNat + 1)) (s.read (s.pc.toNat + 2)) (s.read (s.pc.toNat + 3))

/-- Phase F: the address checks of the fetch, the read of the instruction, the decoder (R72, R73). -/
def fetch (s : State) : Phase Instr :=
  (checkFetch s).bind fun _ t =>
    match t.decodeAt with
    | .error e => .stopped (raiseDecode e t)
    | .ok i => .ok i t

/-- The four words of an instruction placed at PC for the fetch, with the capacity, run state and parameter that a
fetch there needs (log 20): the part of withFetchWord that a repair may mend. -/
def placeInstr (ws : List Word) (s : State) : State :=
  let p := s.pc.toNat
  let c := max s.cap (p + 4)
  let m := Memory.set (Memory.set (Memory.set (Memory.set (Memory.zeroFill s.mem s.cap c)
    p (ws.getD 0 0)) (p + 1) (ws.getD 1 0)) (p + 2) (ws.getD 2 0)) (p + 3) (ws.getD 3 0)
  { s with
    mem := m
    cap := c
    pc := (p : Int)
    run := .running
    cfg := { maxCapacity := s.cfg.maxCapacity.map (max c) } }

end Sys2Proof.Machine
end

