-- ==== Sys2Proof/Machine/Step.lean ====
section
/-! DEFINITION. The step of the loop (R71, R72, R80), and where the host places a word for the next fetch. -/

namespace Sys2Proof.Machine

/-- One step (R71, R72). Running: fetch and decode, then the instruction's meaning at the same state (which makes the
fetch's growth its own). Halted and Faulted: no step is enabled (R80), and a step that is not enabled has no effect
(R71). -/
def step (s : State) : Host.Outcome State Fault Refusal :=
  match s.run with
  | .running =>
    match fetch s with
    | .stopped t => .next t
    | .ok i _ => exec i s
  | .halted => .next s
  | .faulted => .next s

/-- `s` with the instruction whose table bits are `w` stored where the next step fetches. -/
def State.withFetchWord (s : State) (nbits w : Nat) : State := placeInstr (tableWords nbits w) s

end Sys2Proof.Machine
end

