-- ==== Sys2Proof/Machine/Assembly.lean ====
section
/-! DEFINITION. The part of the spec's notation that has a meaning for the machine: what an instruction assembles to and
the three pseudo-instructions (R66, R67). The text syntax of R66 is the spec's notation for its examples, and an assembler
is out of scope (R5(b)). -/

namespace Sys2Proof.Machine

/-- An instruction assembles to its canonical word and its raw parameters; an immediate write operand is refused
(R66). -/
def assemble (i : Instr) : Option (List Word) := if i.wellFormed then some (encode i) else none

/-- The pseudo-instructions of R67. -/
inductive Pseudo where
  /-- `jmp t` -/
  | jmp (t : Operand)
  /-- `mov s, d` -/
  | mov (src dst : Operand)
  /-- `nop` -/
  | nop
deriving DecidableEq, Repr

/-- The immediate operand `#v` (R66). -/
def imm (v : Word) : Operand := ⟨.immediate, v⟩

/-- The expansion of a pseudo-instruction; the decoder sees only the expansion (R67). -/
def Pseudo.expand : Pseudo → Instr
  | .jmp t => .jt (imm 1) t
  | .mov s d => .add s (imm 0) d
  | .nop => .jt (imm 0) (imm 0)

end Sys2Proof.Machine
end

