-- ==== Sys2Proof/Machine/Environment.lean ====
section
/-! DEFINITION. The block's interface and its environment (R23, R26, R27, R71, R109 to R115, R126): the derived wait status,
when a step is enabled, what the host reads, and the host's and the environment's moves between steps. -/

namespace Sys2Proof.Machine

/-! ### Waiting and enabledness (R23, R71) -/

/-- The step of `i` would reach PortRead and finds no value: `in` whose fetch and operand raise no fault (R23). -/
def needsInput (i : Instr) (s : State) : Bool :=
  match i with
  | .add _ _ _ => false
  | .mul _ _ _ => false
  | .inp d =>
    match phasesW d s with
    | .stopped _ => false
    | .ok _ _ => s.inQ.isEmpty
  | .out _ => false
  | .jt _ _ => false
  | .jf _ _ => false
  | .lt _ _ _ => false
  | .eq _ _ _ => false
  | .arb _ => false
  | .hlt => false

/-- The step of `i` would reach PortWrite and OUTPUT does not accept (R23). -/
def needsOutput (i : Instr) (s : State) : Bool :=
  match i with
  | .add _ _ _ => false
  | .mul _ _ _ => false
  | .inp _ => false
  | .out a =>
    match phasesR a s with
    | .stopped _ => false
    | .ok _ _ => !s.outReady
  | .jt _ _ => false
  | .jf _ _ => false
  | .lt _ _ _ => false
  | .eq _ _ _ => false
  | .arb _ => false
  | .hlt => false

/-- A test of the instruction about to be executed, false when RUN is not Running or the fetch faults. -/
def atInstr (test : Instr → State → Bool) (s : State) : Bool :=
  match s.run with
  | .running =>
    match fetch s with
    | .stopped _ => false
    | .ok i _ => test i s
  | .halted => false
  | .faulted => false

/-- `waiting_input` (R23). -/
def waitingInput (s : State) : Bool := atInstr needsInput s

/-- `waiting_output` (R23). -/
def waitingOutput (s : State) : Bool := atInstr needsOutput s

/-- The step is enabled (R71): Running, and not waiting at a port. -/
def enabled (s : State) : Bool := s.run == .running && !waitingInput s && !waitingOutput s

/-! ### What the host reads (R27, R42, R120) -/

/-- The status port: RUN and FAULT (R27). -/
def status (s : State) : RunState × FaultRecord := (s.run, s.fault)

/-- The memory image `[mem[0], ..., mem[CAP-1]]`, valid only when RUN = Halted (R27, R42). -/
def image (s : State) : Option (List Word) :=
  match s.run with
  | .running => none
  | .halted => some ((List.range s.cap).map s.read)
  | .faulted => none

/-- `has_exited()`: the cached flag; it blocks on nothing and consumes nothing (R113). -/
def hasExited (s : State) : Bool := s.exited

/-! ### The host's and the environment's moves (R110, R113, R114) -/

/-- How a host `send` ends (R113, R114). -/
inductive SendResult where
  | delivered
  /-- the worker has exited: caught and logged, not raised (R114) -/
  | failed
deriving DecidableEq, Repr

/-- The worker is destroyed (R126): its execution unit has finished and its channels are drained. It stays so for ever: no
step has an effect on it (R80), there is nothing to receive, and what is sent to it reaches no channel (log 23). -/
def destroyed (s : State) : Bool := s.run != .running && s.inQ.isEmpty && s.outQ.isEmpty

/-- `send(value)` (R113): a Data message for the input channel. To a worker that has exited it fails and the value is
discarded (R114). A faulted worker has not exited, and the host cannot tell it from a running one (R115; log 10): the
answer is the same, and the value lies unread in its channel, or nowhere once the worker is destroyed (R126; log 23). -/
def hostSend (v : Word) (s : State) : SendResult × State :=
  match s.run with
  | .running => (.delivered, { s with inQ := s.inQ ++ [v] })
  | .halted => (.failed, s)
  | .faulted => (.delivered, if destroyed s then s else { s with inQ := s.inQ ++ [v] })

/-- How a host `recv` ends (R113). -/
inductive RecvResult where
  /-- a Data message's value -/
  | value (v : Word)
  /-- Exit: nothing is returned -/
  | nothing
  /-- no message: recv blocks (R113), for ever after a fault (R115) -/
  | blocked
deriving DecidableEq, Repr

/-- `recv()` (R113). A blocked recv changes nothing (log 17). -/
def hostRecv (s : State) : RecvResult × State :=
  match s.outQ with
  | [] => (.blocked, s)
  | .data v :: q => (.value v, { s with outQ := q })
  | .exit :: q => (.nothing, { s with outQ := q, exited := true })

/-- The environment begins or ceases to accept outputs (R6 OUTPUT, R110; log 8). -/
def setAccept (b : Bool) (s : State) : State := { s with outReady := b }

/-- A move of the environment between two steps. -/
inductive EnvEvent where
  | send (v : Word)
  | recv
  | accept (b : Bool)
deriving DecidableEq, Repr

/-- The state after a move of the environment. -/
def applyEvent (e : EnvEvent) (s : State) : State :=
  match e with
  | .send v => (hostSend v s).2
  | .recv => (hostRecv s).2
  | .accept b => setAccept b s

/-- What can happen next to an instance: its engine takes a step, or the environment moves. Nothing else can
(R27, R107). -/
inductive Action where
  | engine
  | env (e : EnvEvent)
deriving DecidableEq, Repr

/-- The state after an action. -/
def act (a : Action) (s : State) : State :=
  match a with
  | .engine =>
    match step s with
    | .next t => t
    | .fault _ => s
    | .refused _ => s
  | .env e => applyEvent e s

/-- The state after a list of actions, first to last. -/
def runActions : List Action → State → State
  | [], s => s
  | a :: as, s => runActions as (act a s)

end Sys2Proof.Machine
end

