-- ==== Sys2Proof/Machine/Load.lean ====
section
/-! DEFINITION. Program load, the machine's one reset (R27 load, R121 to R124): the state a list of words gives, and the
text format of R123. A refused load makes no instance (R119, R124): the answer is `none`. -/

namespace Sys2Proof.Machine

/-- The instance that loading the words `ws` creates (R121, R122): N >= 1 words at addresses 0, 1, 2, ..., CAP = N.
N = 0 is refused (D3). N above a finite MAX_CAPACITY is refused, since R13 has CAP <= MAX_CAPACITY (DESIGN CHOICE,
log 11). -/
def load (cfg : Config) (ws : List Word) : Option State :=
  if ws = [] then none
  else if cfg.maxCapacity.all fun m => decide (ws.length ≤ m) then
    some { State.reset with mem := Memory.ofWords 0 ws, cap := ws.length, cfg := cfg }
  else none

/-! ### The text format (R123) -/

/-- `ws := ' ' | '\t' | '\r' | '\n'` -/
def isSpace (c : Char) : Bool := c == ' ' || c == '\t' || c == '\r' || c == '\n'

/-- `ws* item ws*` without the white space around it. -/
def trim (t : List Char) : List Char := ((t.dropWhile isSpace).reverse.dropWhile isSpace).reverse

/-- The pieces between commas; always at least one, possibly empty. -/
def splitCommas : List Char → List (List Char)
  | [] => [[]]
  | c :: t =>
    if c = ',' then [] :: splitCommas t
    else
      match splitCommas t with
      | [] => [[c]]
      | p :: ps => (c :: p) :: ps

/-- The value of a decimal digit character. -/
def digitValue? (c : Char) : Option Nat :=
  if 48 ≤ c.toNat ∧ c.toNat ≤ 57 then some (c.toNat - 48) else none

/-- The value of the digits `t` read after the value `acc`; `none` at any other character. -/
def digitsFrom (acc : Nat) : List Char → Option Nat
  | [] => some acc
  | c :: t =>
    match digitValue? c with
    | none => none
    | some d => digitsFrom (10 * acc + d) t

/-- `digit+` -/
def parseDigits (t : List Char) : Option Nat := if t = [] then none else digitsFrom 0 t

/-- `item := ['-'] digit+`, the value in i64; a '+' sign and an empty item are refused (R123). -/
def parseItem : List Char → Option Word
  | [] => none
  | c :: t =>
    if c = '-' then
      match parseDigits t with
      | none => none
      | some n => toWord? (-(n : Int))
    else
      match parseDigits (c :: t) with
      | none => none
      | some n => toWord? (n : Int)

/-- Every piece is an item, or the text is refused. -/
def parsePieces : List (List Char) → Option (List Word)
  | [] => some []
  | p :: ps =>
    match parseItem (trim p) with
    | none => none
    | some w =>
      match parsePieces ps with
      | none => none
      | some ws => some (w :: ws)

/-- `program := ws* item (ws* ',' ws* item)* ws*` (R123). -/
def parseProgram (t : List Char) : Option (List Word) := parsePieces (splitCommas t)

/-- Load from program text (R123, R124). -/
def loadText (cfg : Config) (t : List Char) : Option State :=
  match parseProgram t with
  | none => none
  | some ws => load cfg ws

end Sys2Proof.Machine
end

