-- ==== Sys2Proof/Machine/Workers.lean ====
section
/-! DEFINITION. Several instances at once (R111, R116): a list of states, nothing shared. An action names one worker;
the interleaving of atomic steps is exact because the instances share nothing (R48, D1; log 18). -/

namespace Sys2Proof.Machine

/-- The workers, in the order of their creation. -/
abbrev Workers := List State

/-- `spawn(program, label)` (R111): a new instance with its own copy of the program's memory and empty channels. The
label has no effect on the machine (R111, D23). A refused text creates nothing (R124). -/
def spawn (cfg : Config) (program : List Char) (_label : List Char) (ws : Workers) : Workers :=
  match loadText cfg program with
  | none => ws
  | some s => ws ++ [s]

/-- Worker `k`, if there is one, undergoes the action `a` (R116). -/
def actAt (k : Nat) (a : Action) (ws : Workers) : Workers :=
  match ws[k]? with
  | none => ws
  | some s => ws.set k (act a s)

end Sys2Proof.Machine
end

