-- ==== Sys2Proof/Safety.lean ====
section
/-! DEFINITION. The terms the claims use: what every reachable state satisfies, what a safe run is, schedules and the
weak fairness of R133, and the relations "keeps" that frames are stated with. -/

namespace Sys2Proof.Machine

/-! ### What every reachable state satisfies -/

/-- MEM is in canonical form and lists only cells of 0..CAP-1 (R33). -/
def State.memOk (s : State) : Bool := Memory.wf s.mem && Memory.below s.cap s.mem

/-- 1 <= CAP <= MAX_CAPACITY (R13, R33). -/
def State.capOk (s : State) : Bool :=
  decide (1 ≤ s.cap) && s.cfg.maxCapacity.all fun m => decide (s.cap ≤ m)

/-- PC stays within i64 where MAX_CAPACITY <= 2^63 - 1 (R15). -/
def State.pcOk (s : State) : Bool :=
  s.cfg.maxCapacity.all fun m => decide (2 ^ 63 - 1 < m) || inI64 s.pc

/-- The fields a record has for its cause, as the table of R102 gives them. -/
def FaultRecord.wellShaped (f : FaultRecord) : Bool :=
  match f.cause with
  | .none => decide (f = FaultRecord.clear)
  | .illegalOperation => f.word.isSome && f.param.isNone && f.value.isNone
  | .illegalMode =>
    f.word.isSome && (f.param ≠ some .fetch && f.param.isSome) && f.value.any fun d => decide (3 ≤ d) && decide (d ≤ 9)
  | .immediateWrite =>
    f.word.isSome && (f.param = some (.index 0) || f.param = some (.index 2)) && f.value.isNone
  | .negativeAddress =>
    ((f.param = some .fetch && f.word.isNone) || (f.param ≠ some .fetch && f.param.isSome && f.word.isSome)) &&
      f.value.any fun a => decide (a < 0)
  | .arithmeticOverflow => f.word.isSome && f.param.isNone && f.value.any fun r => !inI64 r
  | .capacityExhausted =>
    ((f.param = some .fetch && f.word.isNone) || (f.param ≠ some .fetch && f.param.isSome && f.word.isSome)) &&
      f.value.any fun a => decide (0 ≤ a)

/-- FAULT is clear unless RUN = Faulted, and then it has a cause, the PC of the faulting step, and the fields R102 gives
that cause (R20, R102, R103). -/
def State.faultOk (s : State) : Bool :=
  match s.run with
  | .running => decide (s.fault = FaultRecord.clear)
  | .halted => decide (s.fault = FaultRecord.clear)
  | .faulted => s.fault.cause ≠ .none && s.fault.pc = some s.pc && s.fault.wellShaped

/-- The messages are all Data. -/
def onlyData : List Message → Bool
  | [] => true
  | .data _ :: q => onlyData q
  | .exit :: _ => false

/-- The messages are Data and then one Exit, the last. -/
def endsInExit : List Message → Bool
  | [] => false
  | .data _ :: q => endsInExit q
  | .exit :: q => decide (q = [])

/-- Exit once, Exit last, Exit only at halt (R112, R113): until the instance halts there is no Exit and the host has seen
none; after that, either Exit is the last message still to be received, or the host has received it and nothing is
left. -/
def State.channelOk (s : State) : Bool :=
  match s.run with
  | .running => !s.exited && onlyData s.outQ
  | .halted => if s.exited then decide (s.outQ = []) else endsInExit s.outQ
  | .faulted => !s.exited && onlyData s.outQ

/-- The invariant of the machine. -/
def State.inv (s : State) : Bool := s.memOk && s.capOk && s.pcOk && s.faultOk && s.channelOk

/-! ### Safe runs, schedules -/

/-- The instance has not faulted (R101, R103). -/
def safe (s : State) : Bool := s.run ≠ .faulted

/-- The instance stays safe under each beginning of a list of actions. -/
def safeRun : List Action → State → Bool
  | [], s => safe s
  | a :: as, s => safe s && safeRun as (act a s)

/-- The state after the first `n` actions of a schedule. -/
def trace (sched : Nat → Action) (s : State) : Nat → State
  | 0 => s
  | n + 1 => act (sched n) (trace sched s n)

/-- Weak fairness of one instance (R133): an enabled step is eventually taken, that is, from every point on there is a
point where the step is not enabled or the engine moves. -/
def WeaklyFair (sched : Nat → Action) (s : State) : Prop :=
  ∀ n, ∃ m, n ≤ m ∧ (enabled (trace sched s m) = false ∨ sched m = .engine)

/-! ### Relations for frames -/

/-- Every address reads as before. -/
def KeepsMemory (s t : State) : Prop := ∀ a, t.read a = s.read a

/-- Every address but `x` reads as before. -/
def KeepsMemoryBut (x : Nat) (s t : State) : Prop := ∀ a, a ≠ x → t.read a = s.read a

/-- The run state and the fault record are unchanged. -/
def KeepsStatus (s t : State) : Prop := t.run = s.run ∧ t.fault = s.fault

/-- The channels, OUTPUT's condition and the host's flag are unchanged. -/
def KeepsChannels (s t : State) : Prop :=
  t.inQ = s.inQ ∧ t.outQ = s.outQ ∧ t.outReady = s.outReady ∧ t.exited = s.exited

/-- CAP has grown as the accesses up to address `n` ask, and the parameter is unchanged (R36). -/
def GrowsTo (n : Nat) (s t : State) : Prop := t.cap = growTo s.cap n ∧ t.cfg = s.cfg

/-! ### When the phases before X raise no fault -/

/-- Phase F's address checks pass: PC >= 0, and the growth for PC + 3 is allowed (R73). -/
def State.fetchOk (s : State) : Bool := decide (0 ≤ s.pc) && s.fits (s.pc + 3).toNat

/-- Phase A's checks of parameter `i` pass: the effective address is not negative, and the growth for it is allowed
(R75). -/
def State.operandOk (s : State) (i : Fin 3) (o : Operand) : Bool := decide (0 ≤ s.ea i o) && s.fits (s.ea i o).toNat

/-- The address of parameter `i`, once its checks pass (R74). -/
def State.addr (s : State) (i : Fin 3) (o : Operand) : Nat := (s.ea i o).toNat

/-- The value of the read operand `i`, as an integer (R76). -/
def State.val (s : State) (i : Fin 3) (o : Operand) : Int := (s.operandValue o (s.addr i o)).toInt

/-- The integer that the completed step of an instruction stores at its write operand's address (R86, R87, R89, R94, R95);
`none` for an instruction that stores nothing, and for `in` with no input value. -/
def State.storedValue (s : State) : Instr → Option Int
  | .add a b _ => some (s.val 0 a + s.val 1 b)
  | .mul a b _ => some (s.val 0 a * s.val 1 b)
  | .inp _ => s.inQ.head?.map BitVec.toInt
  | .out _ => none
  | .jt _ _ => none
  | .jf _ _ => none
  | .lt a b _ => some (if s.val 0 a < s.val 1 b then 1 else 0)
  | .eq a b _ => some (if s.val 0 a = s.val 1 b then 1 else 0)
  | .arb _ => none
  | .hlt => none

/-! ### The fault a step raises, written from R105

The checks of R105 in its order, each as the record it raises or `none`, over the state the step starts from. This list
is not used by `step`; a claim says that the two agree. -/

/-- The record of a fault at the state `s`. -/
def recordAt (s : State) (cause : Cause) (word : Option Word) (param : Option FaultParam) (value : Option Int) :
    FaultRecord :=
  { cause := cause, pc := some s.pc, word := word, param := param, value := value }

/-- R105 items 1 and 2: NEGATIVE_ADDRESS on PC, CAPACITY_EXHAUSTED on PC + 3. -/
def fetchFaults (s : State) : List (Option FaultRecord) :=
  [ if s.pc < 0 then some (recordAt s .negativeAddress none (some .fetch) (some s.pc)) else none,
    if s.fits (s.pc + 3).toNat then none
      else some (recordAt s .capacityExhausted none (some .fetch) (some (s.pc + 3))) ]

/-- R105 items 3 to 5: what decode rejects. -/
def decodeFault (s : State) : Option FaultRecord :=
  match s.decodeAt with
  | .ok _ => none
  | .error .illegalOperation => some (recordAt s .illegalOperation (some s.instrWord) none none)
  | .error (.illegalMode i d) =>
    some (recordAt s .illegalMode (some s.instrWord) (some (.index i)) (some (d : Int)))
  | .error (.immediateWrite i) => some (recordAt s .immediateWrite (some s.instrWord) (some (.index i)) none)

/-- R105 item 6 for one parameter: NEGATIVE_ADDRESS, then CAPACITY_EXHAUSTED, on its effective address. -/
def operandFaults (s : State) (i : Fin 3) (o : Operand) : List (Option FaultRecord) :=
  [ if s.ea i o < 0 then
      some (recordAt s .negativeAddress (some s.instrWord) (some (.index i)) (some (s.ea i o))) else none,
    if s.fits (s.addr i o) then none
      else some (recordAt s .capacityExhausted (some s.instrWord) (some (.index i)) (some (s.ea i o))) ]

/-- R105 item 7: ARITHMETIC_OVERFLOW of an exact result. -/
def overflowFault (s : State) (r : Int) : Option FaultRecord :=
  if inI64 r then none else some (recordAt s .arithmeticOverflow (some s.instrWord) none (some r))

/-- R105 items 6 and 7 for a decoded instruction. -/
def executeFaults (s : State) : Instr → List (Option FaultRecord)
  | .add a b d => operandFaults s 0 a ++ operandFaults s 1 b ++ operandFaults s 2 d ++
      [overflowFault s (s.val 0 a + s.val 1 b)]
  | .mul a b d => operandFaults s 0 a ++ operandFaults s 1 b ++ operandFaults s 2 d ++
      [overflowFault s (s.val 0 a * s.val 1 b)]
  | .inp d => operandFaults s 0 d
  | .out a => operandFaults s 0 a
  | .jt c t => operandFaults s 0 c ++ operandFaults s 1 t
  | .jf c t => operandFaults s 0 c ++ operandFaults s 1 t
  | .lt a b d => operandFaults s 0 a ++ operandFaults s 1 b ++ operandFaults s 2 d
  | .eq a b d => operandFaults s 0 a ++ operandFaults s 1 b ++ operandFaults s 2 d
  | .arb a => operandFaults s 0 a ++ [overflowFault s (s.rb.toInt + s.val 0 a)]
  | .hlt => []

/-- The first fault of a list of checks. -/
def firstOf : List (Option FaultRecord) → Option FaultRecord
  | [] => none
  | some r :: _ => some r
  | none :: cs => firstOf cs

/-- The fault that R105 has a step from `s` raise, `none` when no check fails. -/
def firstFault (s : State) : Option FaultRecord :=
  firstOf (fetchFaults s ++ decodeFault s ::
    (match s.decodeAt with
      | .ok i => executeFaults s i
      | .error _ => []))

/-! ### What the host receives -/

/-- The message that the host's `recv` takes in one action. -/
def receivedBy (a : Action) (s : State) : List Message :=
  match a with
  | .engine => []
  | .env (.send _) => []
  | .env .recv => s.outQ.take 1
  | .env (.accept _) => []

/-- The messages that the host's `recv`s take in a list of actions, in order (R113, R120). -/
def received : List Action → State → List Message
  | [], _ => []
  | a :: as, s => receivedBy a s ++ received as (act a s)

/-! ### Relations between two runs -/

/-- Two states a program and the host cannot tell apart before halt: all but CAP and the way MEM is held agree (R21,
R22). -/
def AgreeButCap (s t : State) : Prop :=
  (∀ a, s.read a = t.read a) ∧ s.pc = t.pc ∧ s.rb = t.rb ∧ s.run = t.run ∧ s.fault = t.fault ∧
    s.inQ = t.inQ ∧ s.outQ = t.outQ ∧ s.outReady = t.outReady ∧ s.exited = t.exited

/-- One more value at the end of the input channel. -/
def queueInput (v : Word) (s : State) : State := { s with inQ := s.inQ ++ [v] }

/-- The step from `s` ends in fault entry with the record `r` (R103). -/
def StepFaults (s : State) (r : FaultRecord) : Prop :=
  ∃ t, step s = .next t ∧ t.run = .faulted ∧ t.fault = r

end Sys2Proof.Machine
end

