-- ==== Sys2Proof/Certificates/Slice0/Obligations.lean ====
section
/-! DEFINITION. The statements for the provers. Each docstring names the rules it rests on. `s.addr i o` is the effective
address of parameter i, `s.val i o` the integer a read operand holds, `s.fetchOk` and `s.operandOk i o` say that the checks
of phases F and A pass (R72 to R76). -/

open Sys2Proof Sys2Proof.Machine

/-! ### Encoding -/

/-- Words written out from R53, R56 and R58 decode to the instruction they stand for, one or more of each family, whatever
the parameter words are (R62, R64; the words of 95_test_vectors.md section 2.2 among them). That 100099 decodes as 99
rests on the spec's own inference that digits at 10^5 and above are not consulted (R53, I4; log 15). -/
def Obligations.SampleWordsDecode : Prop :=
  ∀ p q r : Word,
    decode 101 p q r = .ok (.add ⟨.immediate, p⟩ ⟨.position, q⟩ ⟨.position, r⟩) ∧
    decode 1002 p q r = .ok (.mul ⟨.position, p⟩ ⟨.immediate, q⟩ ⟨.position, r⟩) ∧
    decode 21202 p q r = .ok (.mul ⟨.relative, p⟩ ⟨.immediate, q⟩ ⟨.relative, r⟩) ∧
    decode 203 p q r = .ok (.inp ⟨.relative, p⟩) ∧
    decode 104 p q r = .ok (.out ⟨.immediate, p⟩) ∧
    decode 1105 p q r = .ok (.jt ⟨.immediate, p⟩ ⟨.immediate, q⟩) ∧
    decode 2006 p q r = .ok (.jf ⟨.position, p⟩ ⟨.relative, q⟩) ∧
    decode 20107 p q r = .ok (.lt ⟨.immediate, p⟩ ⟨.position, q⟩ ⟨.relative, r⟩) ∧
    decode 1008 p q r = .ok (.eq ⟨.position, p⟩ ⟨.immediate, q⟩ ⟨.position, r⟩) ∧
    decode 209 p q r = .ok (.arb ⟨.relative, p⟩) ∧
    decode 99 p q r = .ok .hlt ∧
    decode 22299 p q r = .ok .hlt ∧
    decode 100099 p q r = .ok .hlt

/-- R64: the canonical word of each instruction is op + 100*mA + 1000*mB + 10000*mC with 0 for an unused parameter, and it
lies in 1..22299. R53: any two words, legal or not, that are not negative and differ by a multiple of 100000 decode alike.
That digits at 10^5 and above are not consulted is the spec's own inference (R53, R64; log 15). -/
def Obligations.CanonicalWordsAndTheirMultiples : Prop :=
  (∀ a b d : Operand,
    (encode (.add a b d))[0]? = some (BitVec.ofNat 64 (1 + 100 * a.mode.digit + 1000 * b.mode.digit + 10000 * d.mode.digit)) ∧
    (encode (.mul a b d))[0]? = some (BitVec.ofNat 64 (2 + 100 * a.mode.digit + 1000 * b.mode.digit + 10000 * d.mode.digit)) ∧
    (encode (.inp d))[0]? = some (BitVec.ofNat 64 (3 + 100 * d.mode.digit)) ∧
    (encode (.out a))[0]? = some (BitVec.ofNat 64 (4 + 100 * a.mode.digit)) ∧
    (encode (.jt a b))[0]? = some (BitVec.ofNat 64 (5 + 100 * a.mode.digit + 1000 * b.mode.digit)) ∧
    (encode (.jf a b))[0]? = some (BitVec.ofNat 64 (6 + 100 * a.mode.digit + 1000 * b.mode.digit)) ∧
    (encode (.lt a b d))[0]? = some (BitVec.ofNat 64 (7 + 100 * a.mode.digit + 1000 * b.mode.digit + 10000 * d.mode.digit)) ∧
    (encode (.eq a b d))[0]? = some (BitVec.ofNat 64 (8 + 100 * a.mode.digit + 1000 * b.mode.digit + 10000 * d.mode.digit)) ∧
    (encode (.arb a))[0]? = some (BitVec.ofNat 64 (9 + 100 * a.mode.digit)) ∧
    (encode .hlt)[0]? = some (BitVec.ofNat 64 99)) ∧
  (∀ (i : Instr) (w : Word), i.wellFormed = true → (encode i)[0]? = some w → 1 ≤ w.toInt ∧ w.toInt ≤ 22299) ∧
  ∀ w w' : Word, 0 ≤ w.toInt → 0 ≤ w'.toInt → (100000 : Int) ∣ w'.toInt - w.toInt →
    ∀ p q r : Word, decode w' p q r = decode w p q r

/-- Decode of encode is the identity on every well-formed instruction, every raw parameter at every value, whatever
words follow it in memory (R52, R62, R64). -/
def Obligations.DecodeOfEncodeIsIdentity : Prop :=
  ∀ (i : Instr) (rest : List Word), i.wellFormed = true → decodeList (encode i ++ rest) = .ok i

/-- R63: the length is a function of the operation alone, 1 (hlt), 2 (in, out, arb), 3 (jt, jf) or 4 (add, mul, lt, eq)
words, and the decoder tells it from w mod 100. -/
def Obligations.LengthIsFixedByOperation : Prop :=
  (∀ a b d : Operand,
    (encode .hlt).length = 1 ∧ (encode (.inp d)).length = 2 ∧ (encode (.out a)).length = 2 ∧
    (encode (.arb a)).length = 2 ∧ (encode (.jt a b)).length = 3 ∧ (encode (.jf a b)).length = 3 ∧
    (encode (.add a b d)).length = 4 ∧ (encode (.mul a b d)).length = 4 ∧
    (encode (.lt a b d)).length = 4 ∧ (encode (.eq a b d)).length = 4) ∧
  ∀ (w p q r : Word) (i : Instr), decode w p q r = .ok i →
    (encode i).length = i.length ∧ Op.ofCode (w.toInt.toNat % 100) = some i.op

/-- R65(a), (b), with R55, R57, R59, R61: the words decode accepts are exactly the legal ones, whatever the parameter
words are. The spec's own choices D7, D8 and D9 are part of it. -/
def Obligations.DecodeAcceptsExactlyLegalWords : Prop :=
  ∀ w p q r : Word, (∃ i, decode w p q r = .ok i) ↔
    (0 ≤ w.toInt ∧ w.toInt.toNat % 100 ∈ [1, 2, 3, 4, 5, 6, 7, 8, 9, 99] ∧
      digit 2 w.toInt.toNat ∈ [0, 1, 2] ∧ digit 3 w.toInt.toNat ∈ [0, 1, 2] ∧ digit 4 w.toInt.toNat ∈ [0, 1, 2] ∧
      (w.toInt.toNat % 100 ∈ [1, 2, 7, 8] → digit 4 w.toInt.toNat ≠ 1) ∧
      (w.toInt.toNat % 100 = 3 → digit 2 w.toInt.toNat ≠ 1))

/-- R52, R53, R58: an accepted word's operation is w mod 100, each parameter's mode is its own digit and its raw value its
own slot; R65: re-encoding drops only digits that decode does not use. That higher digits are not consulted is the spec's
own inference (R53). -/
def Obligations.DecodeReadsDigitsAndSlots : Prop :=
  ∀ (w p q r : Word) (i : Instr), decode w p q r = .ok i →
    i.op.code = w.toInt.toNat % 100 ∧
    (∀ (k : Nat) (o : Operand), i.operands[k]? = some o →
      o.mode.digit = digit (k + 2) w.toInt.toNat ∧ [p, q, r][k]? = some o.raw) ∧
    ∀ w', (encode i)[0]? = some w' → decode w' p q r = .ok i

/-- R55: a negative instruction word raises ILLEGAL_OPERATION with that word. It is the spec's own choice D8. -/
def Obligations.NegativeWordIsIllegal : Prop :=
  (∀ w p q r : Word, w.toInt < 0 → decode w p q r = .error .illegalOperation) ∧
  ∀ s : State, s.run = .running → s.fetchOk = true → s.instrWord.toInt < 0 →
    StepFaults s { cause := .illegalOperation, pc := some s.pc, word := some s.instrWord, param := none, value := none }

/-- R57: an operation outside the table raises ILLEGAL_OPERATION with that word. -/
def Obligations.OperationOutsideTableIsIllegal : Prop :=
  (∀ w p q r : Word, 0 ≤ w.toInt → w.toInt.toNat % 100 ∉ [1, 2, 3, 4, 5, 6, 7, 8, 9, 99] →
    decode w p q r = .error .illegalOperation) ∧
  ∀ s : State, s.run = .running → s.fetchOk = true → 0 ≤ s.instrWord.toInt →
    s.instrWord.toInt.toNat % 100 ∉ [1, 2, 3, 4, 5, 6, 7, 8, 9, 99] →
    StepFaults s { cause := .illegalOperation, pc := some s.pc, word := some s.instrWord, param := none, value := none }

/-- R59: all three mode digits are checked, whatever the operation's parameter count, and the first bad one is reported
with its index and value; a reported digit is that digit of the word and is bad, so with no bad digit there is no
ILLEGAL_MODE. It is the spec's own choice D7. -/
def Obligations.FirstBadModeDigitIsReported : Prop :=
  (∀ (w p q r : Word) (i : Fin 3), 0 ≤ w.toInt → w.toInt.toNat % 100 ∈ [1, 2, 3, 4, 5, 6, 7, 8, 9, 99] →
    digit (i.val + 2) w.toInt.toNat ∉ [0, 1, 2] →
    (∀ j : Fin 3, j < i → digit (j.val + 2) w.toInt.toNat ∈ [0, 1, 2]) →
    decode w p q r = .error (.illegalMode i (digit (i.val + 2) w.toInt.toNat))) ∧
  (∀ (w p q r : Word) (i : Fin 3) (v : Nat), decode w p q r = .error (.illegalMode i v) →
    0 ≤ w.toInt ∧ v = digit (i.val + 2) w.toInt.toNat ∧ v ∉ [0, 1, 2]) ∧
  ∀ (s : State) (i : Fin 3), s.run = .running → s.fetchOk = true → 0 ≤ s.instrWord.toInt →
    s.instrWord.toInt.toNat % 100 ∈ [1, 2, 3, 4, 5, 6, 7, 8, 9, 99] →
    digit (i.val + 2) s.instrWord.toInt.toNat ∉ [0, 1, 2] →
    (∀ j : Fin 3, j < i → digit (j.val + 2) s.instrWord.toInt.toNat ∈ [0, 1, 2]) →
    StepFaults s { cause := .illegalMode, pc := some s.pc, word := some s.instrWord, param := some (.index i),
                   value := some (digit (i.val + 2) s.instrWord.toInt.toNat : Int) }

/-- R61 (with R60's write indexes): a write operand in immediate mode raises IMMEDIATE_WRITE with the write index, for
add, mul, lt, eq at index 2 and for in at index 0. It is the spec's own choice D9. -/
def Obligations.ImmediateWriteIsIllegal : Prop :=
  ∀ (s : State) (j : Fin 3), s.run = .running → s.fetchOk = true → 0 ≤ s.instrWord.toInt →
    (s.instrWord.toInt.toNat % 100 ∈ [1, 2, 7, 8] ∧ j = 2 ∨ s.instrWord.toInt.toNat % 100 = 3 ∧ j = 0) →
    (∀ k : Fin 3, digit (k.val + 2) s.instrWord.toInt.toNat ∈ [0, 1, 2]) →
    digit (j.val + 2) s.instrWord.toInt.toNat = 1 →
    s.decodeAt = .error (.immediateWrite j) ∧
    StepFaults s { cause := .immediateWrite, pc := some s.pc, word := some s.instrWord, param := some (.index j),
                   value := none }

/-- R61, R62: decode yields only well-formed instructions, so no step runs an immediate write; and `exec` of a term that
is not well-formed raises IMMEDIATE_WRITE (the model's choice, log 13, for a term no step runs). The check is the spec's
own choice D9. -/
def Obligations.DecodedIsWellFormed : Prop :=
  (∀ (w p q r : Word) (i : Instr), decode w p q r = .ok i → i.wellFormed = true) ∧
  ∀ (i : Instr) (s : State), i.wellFormed = false → s.fetchOk = true →
    ∃ t, exec i s = .next t ∧ t.run = .faulted ∧ t.fault.cause = .immediateWrite

/-! ### The memory controller -/

/-- R36 (with R33's CAP >= 1): EnsureCapacity(n) takes CAP to CAP * 2^k, k least with CAP * 2^k > n, zero-fills the new
cells and leaves the old ones; when that passes MAX_CAPACITY it raises CAPACITY_EXHAUSTED with value n, and then CAP and
everything else but the fault entry is unchanged. The fault on MAX_CAPACITY is the spec's own choice D6. -/
def Obligations.EnsureCapacityDoublesLeast : Prop :=
  ∀ (s : State) (n : Nat), 1 ≤ s.cap →
    ∃ k, n < s.cap * 2 ^ k ∧ (∀ j < k, s.cap * 2 ^ j ≤ n) ∧
      ((∀ m, s.cfg.maxCapacity = some m → s.cap * 2 ^ k ≤ m) →
        ∃ t, ensureCapacity n s = some t ∧ t.cap = s.cap * 2 ^ k ∧
          (∀ a, a < s.cap → Memory.get t.mem a = Memory.get s.mem a) ∧
          (∀ a, s.cap ≤ a → a < s.cap * 2 ^ k → Memory.get t.mem a = 0) ∧
          KeepsStatus s t ∧ KeepsChannels s t ∧ t.pc = s.pc ∧ t.rb = s.rb ∧ t.cfg = s.cfg) ∧
      (∀ m, s.cfg.maxCapacity = some m → m < s.cap * 2 ^ k →
        ensureCapacity n s = none ∧
        ∀ (w : Option Word) (p : FaultParam), checkReach w p n n s =
          .stopped { s with
            fault := { cause := .capacityExhausted, pc := some s.pc, word := w, param := some p, value := some (n : Int) }
            run := .faulted })

/-- R40, R36: a step never lowers CAP, takes it only to a doubling of itself, and never past a MAX_CAPACITY that it
respects; the environment never changes it. MAX_CAPACITY is the spec's own parameter (D6). -/
def Obligations.CapacityOnlyGrows : Prop :=
  (∀ s t : State, 1 ≤ s.cap → step s = .next t →
    (∃ k, t.cap = s.cap * 2 ^ k) ∧ (∀ m, s.cfg.maxCapacity = some m → s.cap ≤ m → t.cap ≤ m)) ∧
  ∀ (e : EnvEvent) (s : State), (applyEvent e s).cap = s.cap

/-- R39: MemWrite(a, 1, v) sets mem[a] to v and changes no other cell; the memory's canonical form is kept. -/
def Obligations.MemWriteThenRead : Prop :=
  ∀ (s : State) (a : Nat) (v : Word), s.memOk = true → a < s.cap →
    (s.write a v).read a = v ∧ KeepsMemoryBut a s (s.write a v) ∧ (s.write a v).memOk = true

/-! ### Results and frames of the instructions -/

/-- R86, R82: add stores the exact sum of the old operand values at its write address and advances PC by 4; nothing else
changes but CAP's growth. -/
def Obligations.AddStoresExactSum : Prop :=
  ∀ (a b d : Operand) (s : State), s.memOk = true → 1 ≤ s.cap → d.mode.writable = true → s.fetchOk = true →
    s.operandOk 0 a = true → s.operandOk 1 b = true → s.operandOk 2 d = true → inI64 (s.val 0 a + s.val 1 b) = true →
    ∃ t, exec (.add a b d) s = .next t ∧
      (t.read (s.addr 2 d)).toInt = s.val 0 a + s.val 1 b ∧ KeepsMemoryBut (s.addr 2 d) s t ∧
      t.pc = s.pc + 4 ∧ t.rb = s.rb ∧ KeepsStatus s t ∧ KeepsChannels s t ∧
      GrowsTo (max (max (max (s.pc + 3).toNat (s.addr 0 a)) (s.addr 1 b)) (s.addr 2 d)) s t

/-- R86, R88: add faults ARITHMETIC_OVERFLOW on a sum outside i64, with the exact sum in the record; nothing is
written. It is the spec's own choice D4. -/
def Obligations.AddOverflowFaults : Prop :=
  ∀ (a b d : Operand) (s : State), d.mode.writable = true → s.fetchOk = true →
    s.operandOk 0 a = true → s.operandOk 1 b = true → s.operandOk 2 d = true → inI64 (s.val 0 a + s.val 1 b) = false →
    ∃ t, exec (.add a b d) s = .next t ∧ t.run = .faulted ∧
      t.fault = { cause := .arithmeticOverflow, pc := some s.pc, word := some s.instrWord, param := none,
                  value := some (s.val 0 a + s.val 1 b) } ∧
      KeepsMemory s t ∧ t.pc = s.pc ∧ t.rb = s.rb ∧ KeepsChannels s t ∧
      GrowsTo (max (max (max (s.pc + 3).toNat (s.addr 0 a)) (s.addr 1 b)) (s.addr 2 d)) s t

/-- R87, R82: mul stores the exact product of the old operand values and advances PC by 4; nothing else changes but CAP's
growth. -/
def Obligations.MulStoresExactProduct : Prop :=
  ∀ (a b d : Operand) (s : State), s.memOk = true → 1 ≤ s.cap → d.mode.writable = true → s.fetchOk = true →
    s.operandOk 0 a = true → s.operandOk 1 b = true → s.operandOk 2 d = true → inI64 (s.val 0 a * s.val 1 b) = true →
    ∃ t, exec (.mul a b d) s = .next t ∧
      (t.read (s.addr 2 d)).toInt = s.val 0 a * s.val 1 b ∧ KeepsMemoryBut (s.addr 2 d) s t ∧
      t.pc = s.pc + 4 ∧ t.rb = s.rb ∧ KeepsStatus s t ∧ KeepsChannels s t ∧
      GrowsTo (max (max (max (s.pc + 3).toNat (s.addr 0 a)) (s.addr 1 b)) (s.addr 2 d)) s t

/-- R87, R88: mul faults ARITHMETIC_OVERFLOW on a product outside i64, with the exact product in the record; nothing is
written. It is the spec's own choice D4. -/
def Obligations.MulOverflowFaults : Prop :=
  ∀ (a b d : Operand) (s : State), d.mode.writable = true → s.fetchOk = true →
    s.operandOk 0 a = true → s.operandOk 1 b = true → s.operandOk 2 d = true → inI64 (s.val 0 a * s.val 1 b) = false →
    ∃ t, exec (.mul a b d) s = .next t ∧ t.run = .faulted ∧
      t.fault = { cause := .arithmeticOverflow, pc := some s.pc, word := some s.instrWord, param := none,
                  value := some (s.val 0 a * s.val 1 b) } ∧
      KeepsMemory s t ∧ t.pc = s.pc ∧ t.rb = s.rb ∧ KeepsChannels s t ∧
      GrowsTo (max (max (max (s.pc + 3).toNat (s.addr 0 a)) (s.addr 1 b)) (s.addr 2 d)) s t

/-- R94, R96: lt stores 1 when the first operand is less, signed, else 0, and advances PC by 4; nothing else changes but
CAP's growth. -/
def Obligations.LtStoresOneOrZero : Prop :=
  ∀ (a b d : Operand) (s : State), s.memOk = true → 1 ≤ s.cap → d.mode.writable = true → s.fetchOk = true →
    s.operandOk 0 a = true → s.operandOk 1 b = true → s.operandOk 2 d = true →
    ∃ t, exec (.lt a b d) s = .next t ∧
      (t.read (s.addr 2 d)).toInt = (if s.val 0 a < s.val 1 b then 1 else 0) ∧ KeepsMemoryBut (s.addr 2 d) s t ∧
      t.pc = s.pc + 4 ∧ t.rb = s.rb ∧ KeepsStatus s t ∧ KeepsChannels s t ∧
      GrowsTo (max (max (max (s.pc + 3).toNat (s.addr 0 a)) (s.addr 1 b)) (s.addr 2 d)) s t

/-- R95, R96: eq stores 1 when the operands are equal, else 0, and advances PC by 4; nothing else changes but CAP's
growth. -/
def Obligations.EqStoresOneOrZero : Prop :=
  ∀ (a b d : Operand) (s : State), s.memOk = true → 1 ≤ s.cap → d.mode.writable = true → s.fetchOk = true →
    s.operandOk 0 a = true → s.operandOk 1 b = true → s.operandOk 2 d = true →
    ∃ t, exec (.eq a b d) s = .next t ∧
      (t.read (s.addr 2 d)).toInt = (if s.val 0 a = s.val 1 b then 1 else 0) ∧ KeepsMemoryBut (s.addr 2 d) s t ∧
      t.pc = s.pc + 4 ∧ t.rb = s.rb ∧ KeepsStatus s t ∧ KeepsChannels s t ∧
      GrowsTo (max (max (max (s.pc + 3).toNat (s.addr 0 a)) (s.addr 1 b)) (s.addr 2 d)) s t

/-- R89, R109: in takes exactly the oldest input value, stores it at its write address and advances PC by 2; nothing else
changes but CAP's growth. -/
def Obligations.InStoresOldestInput : Prop :=
  ∀ (d : Operand) (s : State) (x : Word) (q : List Word), s.memOk = true → 1 ≤ s.cap → d.mode.writable = true →
    s.fetchOk = true → s.operandOk 0 d = true → s.inQ = x :: q →
    ∃ t, exec (.inp d) s = .next t ∧ t.inQ = q ∧
      t.read (s.addr 0 d) = x ∧ KeepsMemoryBut (s.addr 0 d) s t ∧
      t.pc = s.pc + 2 ∧ t.rb = s.rb ∧ KeepsStatus s t ∧ t.outQ = s.outQ ∧ t.outReady = s.outReady ∧
      t.exited = s.exited ∧ GrowsTo (max (s.pc + 3).toNat (s.addr 0 d)) s t

/-- R89, R81: with no input value, in waits: no state changes. A fault of phase F or A comes before the wait and consumes
no input. That the fault comes first is the spec's own choice D12. -/
def Obligations.InWaitsOrFaultsWithoutInput : Prop :=
  (∀ (d : Operand) (s : State), d.mode.writable = true → s.fetchOk = true → s.operandOk 0 d = true → s.inQ = [] →
    exec (.inp d) s = .next s) ∧
  ∀ (d : Operand) (s : State), (s.fetchOk = false ∨ s.operandOk 0 d = false) →
    ∃ t, exec (.inp d) s = .next t ∧ t.run = .faulted ∧ t.inQ = s.inQ

/-- R90, R110: out appends its operand's value to the output channel when the environment accepts and advances PC by 2;
nothing else changes but CAP's growth. -/
def Obligations.OutSendsValue : Prop :=
  ∀ (a : Operand) (s : State), s.fetchOk = true → s.operandOk 0 a = true → s.outReady = true →
    ∃ t v, exec (.out a) s = .next t ∧ t.outQ = s.outQ ++ [.data v] ∧ v.toInt = s.val 0 a ∧
      KeepsMemory s t ∧ t.pc = s.pc + 2 ∧ t.rb = s.rb ∧ KeepsStatus s t ∧ t.inQ = s.inQ ∧ t.outReady = s.outReady ∧
      t.exited = s.exited ∧ GrowsTo (max (s.pc + 3).toNat (s.addr 0 a)) s t

/-- R90, R81, R110: while the environment does not accept, out waits: no state changes. A fault of phase F or A comes
before the wait and sends nothing. That the fault comes first is the spec's own choice D12. -/
def Obligations.OutWaitsOrFaultsWithoutOutput : Prop :=
  (∀ (a : Operand) (s : State), s.fetchOk = true → s.operandOk 0 a = true → s.outReady = false →
    exec (.out a) s = .next s) ∧
  ∀ (a : Operand) (s : State), (s.fetchOk = false ∨ s.operandOk 0 a = false) →
    ∃ t, exec (.out a) s = .next t ∧ t.run = .faulted ∧ t.outQ = s.outQ

/-- R91, R78: jt loads PC with the second operand's value when the first is not 0 (negative included), else advances it by
3; nothing else changes but CAP's growth. That any nonzero value is true is the spec's own choice D10. -/
def Obligations.JtJumpsOnNonzero : Prop :=
  ∀ (c g : Operand) (s : State), s.fetchOk = true → s.operandOk 0 c = true → s.operandOk 1 g = true →
    ∃ t, exec (.jt c g) s = .next t ∧ t.pc = (if s.val 0 c = 0 then s.pc + 3 else s.val 1 g) ∧
      KeepsMemory s t ∧ t.rb = s.rb ∧ KeepsStatus s t ∧ KeepsChannels s t ∧
      GrowsTo (max (max (s.pc + 3).toNat (s.addr 0 c)) (s.addr 1 g)) s t

/-- R92, R78: jf loads PC with the second operand's value when the first is exactly 0, else advances it by 3; nothing else
changes but CAP's growth. That exactly 0 is false is the spec's own choice D10. -/
def Obligations.JfJumpsOnZero : Prop :=
  ∀ (c g : Operand) (s : State), s.fetchOk = true → s.operandOk 0 c = true → s.operandOk 1 g = true →
    ∃ t, exec (.jf c g) s = .next t ∧ t.pc = (if s.val 0 c = 0 then s.val 1 g else s.pc + 3) ∧
      KeepsMemory s t ∧ t.rb = s.rb ∧ KeepsStatus s t ∧ KeepsChannels s t ∧
      GrowsTo (max (max (s.pc + 3).toNat (s.addr 0 c)) (s.addr 1 g)) s t

/-- R97, R98: arb adds its operand, read with the old RB, to RB and advances PC by 2; no memory is written, and nothing
else changes but CAP's growth. -/
def Obligations.ArbAddsToRelativeBase : Prop :=
  ∀ (a : Operand) (s : State), s.fetchOk = true → s.operandOk 0 a = true → inI64 (s.rb.toInt + s.val 0 a) = true →
    ∃ t, exec (.arb a) s = .next t ∧ t.rb.toInt = s.rb.toInt + s.val 0 a ∧
      KeepsMemory s t ∧ t.pc = s.pc + 2 ∧ KeepsStatus s t ∧ KeepsChannels s t ∧
      GrowsTo (max (s.pc + 3).toNat (s.addr 0 a)) s t

/-- R97: arb faults ARITHMETIC_OVERFLOW when the new RB would leave i64, with the exact sum in the record; RB stays. It is
the spec's own choice D4. -/
def Obligations.ArbOverflowFaults : Prop :=
  ∀ (a : Operand) (s : State), s.fetchOk = true → s.operandOk 0 a = true → inI64 (s.rb.toInt + s.val 0 a) = false →
    ∃ t, exec (.arb a) s = .next t ∧ t.run = .faulted ∧
      t.fault = { cause := .arithmeticOverflow, pc := some s.pc, word := some s.instrWord, param := none,
                  value := some (s.rb.toInt + s.val 0 a) } ∧
      t.rb = s.rb ∧ KeepsMemory s t ∧ t.pc = s.pc ∧ KeepsChannels s t ∧
      GrowsTo (max (s.pc + 3).toNat (s.addr 0 a)) s t

/-- R99, R112, R73: hlt makes RUN Halted, leaves PC, RB and every cell, and one Exit is sent (in the same step: log 9);
the fetch span still grows memory. That PC stays is the spec's own choice D16. -/
def Obligations.HltHaltsAndSendsExit : Prop :=
  ∀ s : State, s.fetchOk = true →
    ∃ t, exec .hlt s = .next t ∧ t.run = .halted ∧ t.outQ = s.outQ ++ [.exit] ∧ t.pc = s.pc ∧ t.rb = s.rb ∧
      KeepsMemory s t ∧ t.fault = s.fault ∧ t.inQ = s.inQ ∧ t.outReady = s.outReady ∧ t.exited = s.exited ∧
      GrowsTo (s.pc + 3).toNat s t

/-! ### The loop -/

/-- R72, R73: when RUN is Running, the fetch's checks pass and the words at PC decode to `i`, the step is `exec i` at that
state; `exec` makes the fetch's growth its own. The span of the fetch is the spec's own choice D24. -/
def Obligations.StepRunsDecodedInstruction : Prop :=
  ∀ (s : State) (i : Instr), s.run = .running → s.fetchOk = true →
    decode (s.read s.pc.toNat) (s.read (s.pc.toNat + 1)) (s.read (s.pc.toNat + 2)) (s.read (s.pc.toNat + 3)) = .ok i →
    step s = exec i s

/-- R80: once RUN is Halted or Faulted no step is enabled, ever again, and no step has an effect, whatever the engine, the
host and the environment do; Halted is entered only by hlt. -/
def Obligations.TerminalStatesStayTerminal : Prop :=
  (∀ (s : State) (as : List Action), s.run ≠ .running →
    (runActions as s).run = s.run ∧ (runActions as s).fault = s.fault ∧
    enabled (runActions as s) = false ∧ step (runActions as s) = .next (runActions as s)) ∧
  ∀ s t : State, step s = .next t → t.run = .halted → s.run = .halted ∨ s.decodeAt = .ok .hlt

/-- R19: RUN leaves Running only for Halted, by hlt, or for Faulted, by a fault, and the environment never changes it.
Faulted is the spec's own state (D11). -/
def Obligations.RunStateTransitions : Prop :=
  (∀ s t : State, step s = .next t →
    t.run = s.run ∨
    (s.run = .running ∧ t.run = .halted ∧ s.decodeAt = .ok .hlt) ∨
    (s.run = .running ∧ t.run = .faulted ∧ t.fault.cause ≠ .none)) ∧
  ∀ (e : EnvEvent) (s : State), (applyEvent e s).run = s.run

/-- R18, R29, R98: RB is changed by arb alone, memory by add, mul, in, lt and eq alone, at their write operand's address
alone, and hlt changes neither PC nor memory. That hlt leaves PC is the spec's own choice D16. -/
def Obligations.WhichInstructionWritesWhat : Prop :=
  ∀ (i : Instr) (s t : State), exec i s = .next t →
    (t.rb ≠ s.rb → i.op = .arb) ∧
    (∀ x, t.read x ≠ s.read x →
      (i.op ∈ [.add, .mul, .lt, .eq] ∧ ∃ d, i.operands[2]? = some d ∧ x = s.addr 2 d) ∨
      (i.op = .inp ∧ ∃ d, i.operands[0]? = some d ∧ x = s.addr 0 d)) ∧
    (i = .hlt → t.pc = s.pc)

/-- R78: at the end of a completed step PC is unchanged for hlt, the second operand's value for a taken jump, and PC plus
the instruction's length in every other case. That hlt leaves PC is the spec's own choice D16. -/
def Obligations.PcUpdateOfCompletedStep : Prop :=
  ∀ (i : Instr) (s t : State), s.run = .running → exec i s = .next t → t.run ≠ .faulted →
    needsInput i s = false → needsOutput i s = false →
    (i = .hlt → t.pc = s.pc) ∧
    (∀ c g, i = .jt c g → s.val 0 c ≠ 0 → t.pc = s.val 1 g) ∧
    (∀ c g, i = .jf c g → s.val 0 c = 0 → t.pc = s.val 1 g) ∧
    (i ≠ .hlt → (∀ c g, i = .jt c g → s.val 0 c = 0) → (∀ c g, i = .jf c g → s.val 0 c ≠ 0) → t.pc = s.pc + i.length)

/-- R79: a step that changes PC otherwise than by the length of the instruction at PC is a taken jump to its second
operand's value, and nothing outside the engine changes PC. -/
def Obligations.TakenJumpsAreTheOnlyOtherPcChange : Prop :=
  (∀ s t : State, step s = .next t → t.pc ≠ s.pc →
    (∃ i, s.decodeAt = .ok i ∧ t.pc = s.pc + i.length) ∨
    (∃ c g, (s.decodeAt = .ok (.jt c g) ∧ s.val 0 c ≠ 0 ∨ s.decodeAt = .ok (.jf c g) ∧ s.val 0 c = 0) ∧ t.pc = s.val 1 g)) ∧
  ∀ (e : EnvEvent) (s : State), (applyEvent e s).pc = s.pc

/-! ### Faults -/

/-- R104: a step that faults changes only FAULT, RUN and possibly CAP; PC, RB, every memory value and both ports'
sequences are as the step found them, new cells are zero, and no image shows the growth. It is the spec's own choice D13,
and that there is no image D16. -/
def Obligations.FaultsArePrecise : Prop :=
  ∀ s t : State, s.run = .running → step s = .next t → t.run = .faulted →
    t.pc = s.pc ∧ t.rb = s.rb ∧ KeepsMemory s t ∧ KeepsChannels s t ∧ t.cfg = s.cfg ∧ s.cap ≤ t.cap ∧
    (∀ x, s.cap ≤ x → x < t.cap → Memory.get t.mem x = 0) ∧ image t = none

/-- R102, R103, R20: fault entry records a cause, the PC of the faulting step, the fetched word or NONE, and exactly the
fields that R102 gives the cause; no image and no Exit follow. The record is the spec's own choice D11. -/
def Obligations.FaultEntryRecord : Prop :=
  ∀ s t : State, s.run = .running → step s = .next t → t.run = .faulted →
    t.fault.cause ≠ .none ∧ t.fault.pc = some s.pc ∧ (t.fault.word = none ∨ t.fault.word = some s.instrWord) ∧
    (t.fault.word = none ↔ t.fault.param = some .fetch) ∧ t.fault.wellShaped = true ∧
    image t = none ∧ (Message.exit ∈ t.outQ → Message.exit ∈ s.outQ)

/-- R105: the fault of a step is the first of R105's list of checks, each read at the state the step starts from; a step
for which no check fails does not fault; and the first fault of a run is its only one. The order is the spec's own choice
D12. -/
def Obligations.FaultPriority : Prop :=
  ∀ s : State, s.run = .running →
    (∀ r, firstFault s = some r → StepFaults s r) ∧
    (firstFault s = none → ∃ t, step s = .next t ∧ t.run ≠ .faulted ∧ t.fault = s.fault) ∧
    ∀ (t : State) (as : List Action), step s = .next t → t.run = .faulted →
      (runActions as t).run = .faulted ∧ (runActions as t).fault = t.fault

/-- R73, R41(a): a negative PC and an unreachable fetch span fault at the fetch with param FETCH and no word; otherwise
every completed step, of a short instruction too, leaves CAP above PC + 3. The span is the spec's own choice D24, the
bound D6, the fault of a negative PC D21. -/
def Obligations.FetchChecksAndSpan : Prop :=
  ∀ s : State, s.run = .running → 1 ≤ s.cap →
    (s.pc < 0 →
      StepFaults s { cause := .negativeAddress, pc := some s.pc, word := none, param := some .fetch, value := some s.pc }) ∧
    (0 ≤ s.pc → s.fits (s.pc + 3).toNat = false →
      StepFaults s { cause := .capacityExhausted, pc := some s.pc, word := none, param := some .fetch,
                     value := some (s.pc + 3) }) ∧
    (s.fetchOk = true → enabled s = true → ∀ t, step s = .next t → t.run ≠ .faulted → s.pc + 3 < t.cap)

/-- R75: every effective address, of read and write operands, passes CheckAddr and then EnsureCapacity, in parameter
order, before any operand is dereferenced: the first that fails is the fault, with its index and the address. An immediate
operand's address passes both. The bound is the spec's own choice D6. -/
def Obligations.OperandAddressChecks : Prop :=
  ∀ (i : Instr) (s : State) (k : Fin 3) (o : Operand), i.wellFormed = true → s.fetchOk = true →
    i.operands[k.val]? = some o →
    (∀ (j : Fin 3) (o' : Operand), j < k → i.operands[j.val]? = some o' → s.operandOk j o' = true) →
    (s.ea k o < 0 → ∃ t, exec i s = .next t ∧ t.run = .faulted ∧
      t.fault = { cause := .negativeAddress, pc := some s.pc, word := some s.instrWord, param := some (.index k),
                  value := some (s.ea k o) }) ∧
    (0 ≤ s.ea k o → s.fits (s.addr k o) = false → ∃ t, exec i s = .next t ∧ t.run = .faulted ∧
      t.fault = { cause := .capacityExhausted, pc := some s.pc, word := some s.instrWord, param := some (.index k),
                  value := some (s.ea k o) }) ∧
    (o.mode = .immediate → s.operandOk k o = true)

/-! ### Ports and the environment -/

/-- R23, R71, R81: an instance waits for input exactly when it runs, an `in` whose checks pass is at PC and no value is
there, and waits for output likewise; a step that is not enabled changes nothing. Enabledness is the spec's own choice D1.
-/
def Obligations.WaitingIsExactAndChangesNothing : Prop :=
  ∀ s : State,
    (waitingInput s = true ↔
      s.run = .running ∧ s.fetchOk = true ∧ ∃ d, s.decodeAt = .ok (.inp d) ∧ s.operandOk 0 d = true ∧ s.inQ = []) ∧
    (waitingOutput s = true ↔
      s.run = .running ∧ s.fetchOk = true ∧ ∃ a, s.decodeAt = .ok (.out a) ∧ s.operandOk 0 a = true ∧
        s.outReady = false) ∧
    (enabled s = false → step s = .next s)

/-- R89, R90, R109, R110, R112: a step consumes at most the oldest input value, and only for `in`; it appends at most one
message, the operand's value for `out` or Exit for `hlt`; it never touches OUTPUT's condition, the host's flag or the
parameter. -/
def Obligations.PortTrafficOfAStep : Prop :=
  ∀ s t : State, step s = .next t →
    (t.inQ = s.inQ ∨ ∃ d x, s.decodeAt = .ok (.inp d) ∧ s.inQ = x :: t.inQ) ∧
    (t.outQ = s.outQ ∨
      (∃ a v, s.decodeAt = .ok (.out a) ∧ s.outReady = true ∧ t.outQ = s.outQ ++ [.data v] ∧ v.toInt = s.val 0 a) ∨
      (s.decodeAt = .ok .hlt ∧ t.run = .halted ∧ t.outQ = s.outQ ++ [.exit])) ∧
    t.outReady = s.outReady ∧ t.exited = s.exited ∧ t.cfg = s.cfg

/-- R112: in every run of a loaded instance, the messages the host has received and those still to be received are, in
order, Data messages and then exactly one Exit once the instance has halted, and Data messages only before that and for
ever after a fault (R103, R115). That a Halted instance's Exit is in the channel at once is the model's deduction (log 9).
-/
def Obligations.ExitOnceAndLast : Prop :=
  ∀ (cfg : Config) (ws : List Word) (s : State) (as : List Action), load cfg ws = some s →
    ((runActions as s).run = .halted →
      ∃ vs : List Word, received as s ++ (runActions as s).outQ = vs.map .data ++ [.exit]) ∧
    ((runActions as s).run ≠ .halted →
      ∃ vs : List Word, received as s ++ (runActions as s).outQ = vs.map .data)

/-- R114: a send to a worker that has exited fails, is not raised, and the value is discarded. R113: to a running one it
delivers the value at the end of the input channel. R115: a send to a faulted one is answered as one to a running one.
R126: a worker whose unit has finished and whose channels are drained is destroyed for ever, whatever the engine, the host
and the environment do, and a send leaves it as it is. That a worker has exited exactly when its RUN is Halted, before the
host has received Exit too, is the model's deduction (log 10), and so is what a send to a destroyed worker does (log 23).
-/
def Obligations.SendAfterExitIsDiscarded : Prop :=
  (∀ (v : Word) (s : State),
    (s.run = .halted → hostSend v s = (.failed, s)) ∧
    (s.run = .running → hostSend v s = (.delivered, { s with inQ := s.inQ ++ [v] })) ∧
    (s.run = .faulted → (hostSend v s).1 = .delivered) ∧
    (destroyed s = true → (hostSend v s).2 = s)) ∧
  (∀ s : State, s.run ≠ .running → s.inQ = [] → s.outQ = [] → destroyed s = true) ∧
  ∀ (s : State) (as : List Action), destroyed s = true → destroyed (runActions as s) = true

/-- R113: send delivers a Data message to a running worker's input channel; recv returns the value of the next Data
message, sets the exited flag and returns nothing at Exit, and blocks with no message; the flag is set by a recv of Exit
alone and never cleared, and has_exited reads it. That recv blocks with no message also after Exit was received is the
model's deduction (log 17). -/
def Obligations.RecvAndExitedFlag : Prop :=
  (∀ (v : Word) (s : State), s.run = .running → hostSend v s = (.delivered, { s with inQ := s.inQ ++ [v] })) ∧
  (∀ (s : State) (v : Word) (q : List Message), s.outQ = .data v :: q →
    hostRecv s = (.value v, { s with outQ := q })) ∧
  (∀ (s : State) (q : List Message), s.outQ = .exit :: q →
    hostRecv s = (.nothing, { s with outQ := q, exited := true })) ∧
  (∀ s : State, s.outQ = [] → hostRecv s = (.blocked, s)) ∧
  (∀ (s : State) (a : Action), hasExited s = false → hasExited (act a s) = true →
    a = .env .recv ∧ ∃ q, s.outQ = .exit :: q) ∧
  ∀ (s : State) (as : List Action), hasExited s = true → hasExited (runActions as s) = true

/-- R42, R27: the image is there exactly at halt, has CAP entries, and entry a is mem[a]. That a fault gives no image is
the spec's own choice D16. -/
def Obligations.ImageExactlyAtHalt : Prop :=
  ∀ s : State,
    (s.run ≠ .halted → image s = none) ∧
    (s.run = .halted → ∃ l, image s = some l ∧ l.length = s.cap ∧ ∀ a, a < s.cap → l[a]? = some (s.read a))

/-! ### Reset and load -/

/-- R28, R122: the reset state is the load of one word 0 (the model's choice, log 2) with MAX_CAPACITY = inf (log 4): every
address reads 0, CAP = 1, PC = 0, RB = 0, Running, no fault, empty channels. -/
def Obligations.ResetIsLoadOfOneZeroWord : Prop :=
  load { maxCapacity := none } [0] = some State.reset ∧ (∀ a, State.reset.read a = 0) ∧
    State.reset.cap = 1 ∧ State.reset.pc = 0 ∧ State.reset.rb = 0 ∧ State.reset.run = .running ∧
    State.reset.fault = { cause := .none, pc := none, word := none, param := none, value := none } ∧
    State.reset.inQ = [] ∧ State.reset.outQ = [] ∧ State.reset.exited = false

/-- R121, R122, R13: loading N >= 1 words, N <= MAX_CAPACITY, gives the state of R122's table, and that state meets the
invariant; R123: N = 0 is refused. CAP = N and the refusal are the spec's own choice D3, PC = 0 D2. -/
def Obligations.LoadGivesResetState : Prop :=
  (∀ (cfg : Config) (ws : List Word), ws ≠ [] → (∀ m, cfg.maxCapacity = some m → ws.length ≤ m) →
    ∃ s, load cfg ws = some s ∧ (∀ a, s.read a = ws.getD a 0) ∧ s.cap = ws.length ∧ s.pc = 0 ∧ s.rb = 0 ∧
      s.run = .running ∧ s.fault = { cause := .none, pc := none, word := none, param := none, value := none } ∧
      s.inQ = [] ∧ s.outQ = [] ∧ s.exited = false ∧ s.cfg = cfg ∧ s.inv = true) ∧
  ∀ cfg : Config, load cfg [] = none

/-- R123: the text is read as pieces between commas, left to right; it is refused when a piece is. The grammar is the
spec's own choice D19. -/
def Obligations.LoadTextSplitsAtCommas : Prop :=
  ∀ t u : List Char,
    (∀ vs ws, parseProgram t = some vs → parseProgram u = some ws → parseProgram (t ++ ',' :: u) = some (vs ++ ws)) ∧
    (parseProgram t = none → parseProgram (t ++ ',' :: u) = none) ∧
    (parseProgram u = none → parseProgram (t ++ ',' :: u) = none)

/-- R123: a piece is an optional '-' and one or more decimal digits, with white space around it; it gives its value, and
is refused when the value is outside i64. The grammar is the spec's own choice D19. -/
def Obligations.LoadItemHasItsDecimalValue : Prop :=
  ∀ (pre post ds : List Char) (neg : Bool), (∀ c ∈ pre, isSpace c = true) → (∀ c ∈ post, isSpace c = true) →
    ds ≠ [] → (∀ c ∈ ds, c.isDigit = true) →
    parseProgram (pre ++ ((if neg then ['-'] else []) ++ ds) ++ post) =
      let n : Int := ds.foldl (fun m c => 10 * m + (c.toNat - 48)) 0
      let v : Int := if neg then -n else n
      if -2 ^ 63 ≤ v ∧ v < 2 ^ 63 then some [BitVec.ofInt 64 v] else none

/-- R123: a text without a comma that is not white space, an optional '-', one or more digits and white space, in this
order, is refused (a lone '-', a misplaced '-' as in 1-2, white space inside an item as in 1 2, two items with no comma
between them); a text with any character but digits, '-', ',' and white space (a '+' among them), an empty text and a text
of white space only are refused. With the rule of commas, the same holds of each item, an empty one among them. The
grammar is the spec's own choice D19. -/
def Obligations.LoadRefusesOtherText : Prop :=
  ∀ t : List Char,
    ((∀ c ∈ t, c ≠ ',') →
      (¬ ∃ (pre post ds : List Char) (neg : Bool), (∀ c ∈ pre, isSpace c = true) ∧ (∀ c ∈ post, isSpace c = true) ∧
        ds ≠ [] ∧ (∀ c ∈ ds, c.isDigit = true) ∧ t = pre ++ ((if neg then ['-'] else []) ++ ds) ++ post) →
      parseProgram t = none) ∧
    ((∃ c ∈ t, c.isDigit = false ∧ c ≠ '-' ∧ c ≠ ',' ∧ isSpace c = false) → parseProgram t = none) ∧
    ((∀ c ∈ t, isSpace c = true) → parseProgram t = none)

/-! ### Invariants and headline results -/

/-- The machine's invariant is kept by every step, from every state that meets it: memory canonical and within CAP (R33),
1 <= CAP <= MAX_CAPACITY (R13), PC in i64 where MAX_CAPACITY allows the claim (R15), FAULT as RUN and R102 say (R20), Exit
once and last (R112). FAULT is the spec's own choice D11, the bound D6. That Exit is in the channel from the step of hlt
on is the model's deduction (log 9). -/
def Obligations.InvariantKeptByStep : Prop :=
  ∀ s t : State, s.inv = true → step s = .next t → t.inv = true

/-- The invariant is kept by every move of the host and the environment. -/
def Obligations.InvariantKeptByEnvironment : Prop :=
  ∀ (e : EnvEvent) (s : State), s.inv = true → (applyEvent e s).inv = true

/-- The invariant holds at reset. -/
def Obligations.InvariantAtReset : Prop := State.reset.inv = true

/-- The model refuses nothing and stops nowhere: every step of every state, and every instruction at every state, answers a
next state; fault entry is one (R103; log 5). -/
def Obligations.EveryStepAnswersNext : Prop :=
  (∀ s : State, ∃ t, step s = .next t) ∧ ∀ (i : Instr) (s : State), ∃ t, exec i s = .next t

/-- R21, R22, R34: a program never sees CAP. With MAX_CAPACITY = inf, two instances that differ only in CAP stay alike in
all a program or a port can show, whatever the engine, the host and the environment do. That CAP shows nowhere else is the
spec's own inference (R22). -/
def Obligations.ProgramNeverSeesCapacity : Prop :=
  ∀ (s t : State) (as : List Action), s.inv = true → t.inv = true → s.cfg.maxCapacity = none →
    t.cfg.maxCapacity = none → AgreeButCap s t → AgreeButCap (runActions as s) (runActions as t)

/-- R30, R83: only when a value arrives is open, never what the block computes: unless the step is waiting for it, a value
that the host sends before a step and the same value sent after the step leave the same state. The one exception is a step
that halts or faults: a value sent before it stays unread in the channel, and one sent after it is discarded when the step
halts (R114; log 10) or leaves the worker destroyed (R126; log 23), and lies unread in the channel otherwise; nothing else
differs. -/
def Obligations.LateInputLeavesTheSameState : Prop :=
  (∀ (s t : State) (v : Word), waitingInput s = false → step s = .next t → t.run = s.run →
    step (applyEvent (.send v) s) = .next (applyEvent (.send v) t)) ∧
  ∀ (s t : State) (v : Word), step s = .next t → s.run = .running → t.run ≠ .running →
    step (applyEvent (.send v) s) = .next (queueInput v t) ∧
    applyEvent (.send v) t = if t.run = .halted ∨ destroyed t = true then t else queueInput v t

/-- R111, R116: workers share nothing: an action of worker k changes worker k alone, and a spawn, whatever its label,
changes no worker that was there. That the label has no effect is the spec's own choice D23. -/
def Obligations.WorkersShareNothing : Prop :=
  (∀ (k j : Nat) (a : Action) (ws : Workers),
    (j ≠ k → (actAt k a ws)[j]? = ws[j]?) ∧ (actAt k a ws)[k]? = ws[k]?.map (act a) ∧
    (actAt k a ws).length = ws.length) ∧
  ∀ (cfg : Config) (p l l' : List Char) (ws : Workers) (j : Nat),
    (j < ws.length → (spawn cfg p l ws)[j]? = ws[j]?) ∧ spawn cfg p l ws = spawn cfg p l' ws ∧
    (spawn cfg p l ws)[ws.length]? = loadText cfg p

/-- R133, R71: an enabled step stays enabled under every move of the host and the environment but one that withdraws
OUTPUT's acceptance, so under a weakly fair schedule without such a move an enabled step is eventually taken. Weak
fairness is the spec's own choice D1. -/
def Obligations.EnabledStepIsEventuallyTaken : Prop :=
  (∀ (s : State) (e : EnvEvent), enabled s = true → e ≠ .accept false → enabled (applyEvent e s) = true) ∧
  ∀ (sched : Nat → Action) (s : State), WeaklyFair sched s → (∀ n, sched n ≠ .env (.accept false)) →
    ∀ n, enabled (trace sched s n) = true → ∃ m, n ≤ m ∧ enabled (trace sched s m) = true ∧ sched m = .engine

/-- R50, R129, R47: whatever an instruction with a write operand (add, mul, in, lt, eq) stores, the next step fetches it,
with no fence or delay: at the PC after the step, the instruction word and the three slots are the stored value where they
lie at the stored address, and the old words elsewhere, and decode reads exactly these. That
instruction's own word, where PC after the step is the stored address, is one case. -/
def Obligations.OverwrittenInstructionIsFetched : Prop :=
  ∀ (i : Instr) (j : Fin 3) (d : Operand) (v : Int) (s : State), s.memOk = true → 1 ≤ s.cap → i.wellFormed = true →
    s.fetchOk = true → (∀ (k : Fin 3) (o : Operand), i.operands[k.val]? = some o → s.operandOk k o = true) →
    i.op.writeIndex = some j → i.writeOperand = some d → s.storedValue i = some v → inI64 v = true →
    ∃ t, exec i s = .next t ∧ t.pc = s.pc + i.length ∧
      (∀ x, t.read x = if x = s.addr j d then BitVec.ofInt 64 v else s.read x) ∧
      (t.pc = s.ea j d → t.instrWord.toInt = v) ∧
      t.decodeAt = decode (t.read (s.pc.toNat + i.length)) (t.read (s.pc.toNat + i.length + 1))
        (t.read (s.pc.toNat + i.length + 2)) (t.read (s.pc.toNat + i.length + 3))
end

