-- ==== Sys2Proof/Laws/State.lean ====
section
/-! SUPPORT. One lemma per field per update of State, true by rfl, so that no later proof unfolds a record update. -/

namespace Sys2Proof.Machine

@[simp] theorem write_mem (s : State) (a : Nat) (v : Word) : (s.write a v).mem = Memory.set s.mem a v := rfl
@[simp] theorem write_cap (s : State) (a : Nat) (v : Word) : (s.write a v).cap = s.cap := rfl
@[simp] theorem write_pc (s : State) (a : Nat) (v : Word) : (s.write a v).pc = s.pc := rfl
@[simp] theorem write_rb (s : State) (a : Nat) (v : Word) : (s.write a v).rb = s.rb := rfl
@[simp] theorem write_run (s : State) (a : Nat) (v : Word) : (s.write a v).run = s.run := rfl
@[simp] theorem write_fault (s : State) (a : Nat) (v : Word) : (s.write a v).fault = s.fault := rfl
@[simp] theorem write_inQ (s : State) (a : Nat) (v : Word) : (s.write a v).inQ = s.inQ := rfl
@[simp] theorem write_outQ (s : State) (a : Nat) (v : Word) : (s.write a v).outQ = s.outQ := rfl
@[simp] theorem write_outReady (s : State) (a : Nat) (v : Word) : (s.write a v).outReady = s.outReady := rfl
@[simp] theorem write_exited (s : State) (a : Nat) (v : Word) : (s.write a v).exited = s.exited := rfl
@[simp] theorem write_cfg (s : State) (a : Nat) (v : Word) : (s.write a v).cfg = s.cfg := rfl

@[simp] theorem grow_mem (s : State) (n : Nat) : (s.grow n).mem = Memory.zeroFill s.mem s.cap (growTo s.cap n) := rfl
@[simp] theorem grow_cap (s : State) (n : Nat) : (s.grow n).cap = growTo s.cap n := rfl
@[simp] theorem grow_pc (s : State) (n : Nat) : (s.grow n).pc = s.pc := rfl
@[simp] theorem grow_rb (s : State) (n : Nat) : (s.grow n).rb = s.rb := rfl
@[simp] theorem grow_run (s : State) (n : Nat) : (s.grow n).run = s.run := rfl
@[simp] theorem grow_fault (s : State) (n : Nat) : (s.grow n).fault = s.fault := rfl
@[simp] theorem grow_inQ (s : State) (n : Nat) : (s.grow n).inQ = s.inQ := rfl
@[simp] theorem grow_outQ (s : State) (n : Nat) : (s.grow n).outQ = s.outQ := rfl
@[simp] theorem grow_outReady (s : State) (n : Nat) : (s.grow n).outReady = s.outReady := rfl
@[simp] theorem grow_exited (s : State) (n : Nat) : (s.grow n).exited = s.exited := rfl
@[simp] theorem grow_cfg (s : State) (n : Nat) : (s.grow n).cfg = s.cfg := rfl

@[simp] theorem raise_mem (c : Cause) (w : Option Word) (p : Option FaultParam) (v : Option Int) (s : State) : (raise
    c w p v s).mem = s.mem := rfl
@[simp] theorem raise_cap (c : Cause) (w : Option Word) (p : Option FaultParam) (v : Option Int) (s : State) : (raise
    c w p v s).cap = s.cap := rfl
@[simp] theorem raise_pc (c : Cause) (w : Option Word) (p : Option FaultParam) (v : Option Int) (s : State) : (raise
    c w p v s).pc = s.pc := rfl
@[simp] theorem raise_rb (c : Cause) (w : Option Word) (p : Option FaultParam) (v : Option Int) (s : State) : (raise
    c w p v s).rb = s.rb := rfl
@[simp] theorem raise_run (c : Cause) (w : Option Word) (p : Option FaultParam) (v : Option Int) (s : State) : (raise
    c w p v s).run = .faulted := rfl
@[simp] theorem raise_fault (c : Cause) (w : Option Word) (p : Option FaultParam) (v : Option Int) (s : State) :
    (raise c w p v s).fault = { cause := c, pc := some s.pc, word := w, param := p, value := v } := rfl
@[simp] theorem raise_inQ (c : Cause) (w : Option Word) (p : Option FaultParam) (v : Option Int) (s : State) : (raise
    c w p v s).inQ = s.inQ := rfl
@[simp] theorem raise_outQ (c : Cause) (w : Option Word) (p : Option FaultParam) (v : Option Int) (s : State) :
    (raise c w p v s).outQ = s.outQ := rfl
@[simp] theorem raise_outReady (c : Cause) (w : Option Word) (p : Option FaultParam) (v : Option Int) (s : State) :
    (raise c w p v s).outReady = s.outReady := rfl
@[simp] theorem raise_exited (c : Cause) (w : Option Word) (p : Option FaultParam) (v : Option Int) (s : State) :
    (raise c w p v s).exited = s.exited := rfl
@[simp] theorem raise_cfg (c : Cause) (w : Option Word) (p : Option FaultParam) (v : Option Int) (s : State) : (raise
    c w p v s).cfg = s.cfg := rfl

@[simp] theorem advance_mem (n : Nat) (s : State) : (advance n s).mem = s.mem := rfl
@[simp] theorem advance_cap (n : Nat) (s : State) : (advance n s).cap = s.cap := rfl
@[simp] theorem advance_pc (n : Nat) (s : State) : (advance n s).pc = s.pc + n := rfl
@[simp] theorem advance_rb (n : Nat) (s : State) : (advance n s).rb = s.rb := rfl
@[simp] theorem advance_run (n : Nat) (s : State) : (advance n s).run = s.run := rfl
@[simp] theorem advance_fault (n : Nat) (s : State) : (advance n s).fault = s.fault := rfl
@[simp] theorem advance_inQ (n : Nat) (s : State) : (advance n s).inQ = s.inQ := rfl
@[simp] theorem advance_outQ (n : Nat) (s : State) : (advance n s).outQ = s.outQ := rfl
@[simp] theorem advance_outReady (n : Nat) (s : State) : (advance n s).outReady = s.outReady := rfl
@[simp] theorem advance_exited (n : Nat) (s : State) : (advance n s).exited = s.exited := rfl
@[simp] theorem advance_cfg (n : Nat) (s : State) : (advance n s).cfg = s.cfg := rfl

@[simp] theorem jumpTo_mem (x : Word) (s : State) : (jumpTo x s).mem = s.mem := rfl
@[simp] theorem jumpTo_cap (x : Word) (s : State) : (jumpTo x s).cap = s.cap := rfl
@[simp] theorem jumpTo_pc (x : Word) (s : State) : (jumpTo x s).pc = x.toInt := rfl
@[simp] theorem jumpTo_rb (x : Word) (s : State) : (jumpTo x s).rb = s.rb := rfl
@[simp] theorem jumpTo_run (x : Word) (s : State) : (jumpTo x s).run = s.run := rfl
@[simp] theorem jumpTo_fault (x : Word) (s : State) : (jumpTo x s).fault = s.fault := rfl
@[simp] theorem jumpTo_inQ (x : Word) (s : State) : (jumpTo x s).inQ = s.inQ := rfl
@[simp] theorem jumpTo_outQ (x : Word) (s : State) : (jumpTo x s).outQ = s.outQ := rfl
@[simp] theorem jumpTo_outReady (x : Word) (s : State) : (jumpTo x s).outReady = s.outReady := rfl
@[simp] theorem jumpTo_exited (x : Word) (s : State) : (jumpTo x s).exited = s.exited := rfl
@[simp] theorem jumpTo_cfg (x : Word) (s : State) : (jumpTo x s).cfg = s.cfg := rfl

@[simp] theorem setRb_mem (r : Word) (s : State) : (setRb r s).mem = s.mem := rfl
@[simp] theorem setRb_cap (r : Word) (s : State) : (setRb r s).cap = s.cap := rfl
@[simp] theorem setRb_pc (r : Word) (s : State) : (setRb r s).pc = s.pc := rfl
@[simp] theorem setRb_rb (r : Word) (s : State) : (setRb r s).rb = r := rfl
@[simp] theorem setRb_run (r : Word) (s : State) : (setRb r s).run = s.run := rfl
@[simp] theorem setRb_fault (r : Word) (s : State) : (setRb r s).fault = s.fault := rfl
@[simp] theorem setRb_inQ (r : Word) (s : State) : (setRb r s).inQ = s.inQ := rfl
@[simp] theorem setRb_outQ (r : Word) (s : State) : (setRb r s).outQ = s.outQ := rfl
@[simp] theorem setRb_outReady (r : Word) (s : State) : (setRb r s).outReady = s.outReady := rfl
@[simp] theorem setRb_exited (r : Word) (s : State) : (setRb r s).exited = s.exited := rfl
@[simp] theorem setRb_cfg (r : Word) (s : State) : (setRb r s).cfg = s.cfg := rfl

@[simp] theorem halt_mem (s : State) : (halt s).mem = s.mem := rfl
@[simp] theorem halt_cap (s : State) : (halt s).cap = s.cap := rfl
@[simp] theorem halt_pc (s : State) : (halt s).pc = s.pc := rfl
@[simp] theorem halt_rb (s : State) : (halt s).rb = s.rb := rfl
@[simp] theorem halt_run (s : State) : (halt s).run = .halted := rfl
@[simp] theorem halt_fault (s : State) : (halt s).fault = s.fault := rfl
@[simp] theorem halt_inQ (s : State) : (halt s).inQ = s.inQ := rfl
@[simp] theorem halt_outQ (s : State) : (halt s).outQ = s.outQ ++ [.exit] := rfl
@[simp] theorem halt_outReady (s : State) : (halt s).outReady = s.outReady := rfl
@[simp] theorem halt_exited (s : State) : (halt s).exited = s.exited := rfl
@[simp] theorem halt_cfg (s : State) : (halt s).cfg = s.cfg := rfl

@[simp] theorem setAccept_mem (b : Bool) (s : State) : (setAccept b s).mem = s.mem := rfl
@[simp] theorem setAccept_cap (b : Bool) (s : State) : (setAccept b s).cap = s.cap := rfl
@[simp] theorem setAccept_pc (b : Bool) (s : State) : (setAccept b s).pc = s.pc := rfl
@[simp] theorem setAccept_rb (b : Bool) (s : State) : (setAccept b s).rb = s.rb := rfl
@[simp] theorem setAccept_run (b : Bool) (s : State) : (setAccept b s).run = s.run := rfl
@[simp] theorem setAccept_fault (b : Bool) (s : State) : (setAccept b s).fault = s.fault := rfl
@[simp] theorem setAccept_inQ (b : Bool) (s : State) : (setAccept b s).inQ = s.inQ := rfl
@[simp] theorem setAccept_outQ (b : Bool) (s : State) : (setAccept b s).outQ = s.outQ := rfl
@[simp] theorem setAccept_outReady (b : Bool) (s : State) : (setAccept b s).outReady = b := rfl
@[simp] theorem setAccept_exited (b : Bool) (s : State) : (setAccept b s).exited = s.exited := rfl
@[simp] theorem setAccept_cfg (b : Bool) (s : State) : (setAccept b s).cfg = s.cfg := rfl

@[simp] theorem raise_read (c : Cause) (w : Option Word) (p : Option FaultParam) (v : Option Int) (s : State) (a :
    Nat) :
    (raise c w p v s).read a = s.read a := rfl
@[simp] theorem advance_read (n : Nat) (s : State) (a : Nat) : (advance n s).read a = s.read a := rfl
@[simp] theorem jumpTo_read (x : Word) (s : State) (a : Nat) : (jumpTo x s).read a = s.read a := rfl
@[simp] theorem setRb_read (r : Word) (s : State) (a : Nat) : (setRb r s).read a = s.read a := rfl
@[simp] theorem halt_read (s : State) (a : Nat) : (halt s).read a = s.read a := rfl

/-- Fault entry for a rejected word is fault entry: the record's fields, by the reason. -/
theorem raiseDecode_eq_raise (e : DecodeError) (s : State) :
    ∃ c p v, raiseDecode e s = raise c (some s.instrWord) p v s ∧
      (∀ i d, e = .illegalMode i d → c = .illegalMode ∧ p = some (.index i) ∧ v = some (d : Int)) ∧
      (e = .illegalOperation → c = .illegalOperation ∧ p = none ∧ v = none) ∧
      (∀ i, e = .immediateWrite i → c = .immediateWrite ∧ p = some (.index i) ∧ v = none) := by
  cases e <;> refine ⟨_, _, _, rfl, ?_⟩ <;> simp +contextual

end Sys2Proof.Machine
end

