-- ==== Sys2Proof/Laws/Decode.lean ====
section
/-! SUPPORT. What the decoder does, said once: its answer on every word (R62), and what an accepted word gives. -/

namespace Sys2Proof

theorem Mode.ofDigit_digit (m : Mode) : Mode.ofDigit m.digit = some m := by cases m <;> rfl

theorem Mode.ofDigit_eq_some {d : Nat} {m : Mode} (h : Mode.ofDigit d = some m) : m.digit = d := by
  unfold Mode.ofDigit at h
  split at h <;> cases h <;> rfl

/-- A digit selects a mode exactly when it is 0, 1 or 2 (R58). -/
theorem Mode.ofDigit_eq_none {d : Nat} : Mode.ofDigit d = none ↔ d ∉ [0, 1, 2] := by
  unfold Mode.ofDigit
  split <;> simp_all

theorem Op.ofCode_code (o : Op) : Op.ofCode o.code = some o := by cases o <;> rfl

theorem Op.ofCode_eq_some {n : Nat} {o : Op} (h : Op.ofCode n = some o) : o.code = n := by
  unfold Op.ofCode at h
  split at h <;> cases h <;> rfl

/-- A number selects an operation exactly when it is in the table (R56, R57). -/
theorem Op.ofCode_eq_none {n : Nat} : Op.ofCode n = none ↔ n ∉ [1, 2, 3, 4, 5, 6, 7, 8, 9, 99] := by
  unfold Op.ofCode
  split <;> simp_all

theorem decodeMode_eq_ok {i : Fin 3} {w : Nat} {m : Mode} (h : decodeMode i w = .ok m) :
    m.digit = digit (i.val + 2) w := by
  unfold decodeMode at h
  split at h
  · next m' hm => cases h; exact Mode.ofDigit_eq_some hm
  · cases h

theorem checkWriteMode_eq_ok {h h' : Header} (hc : checkWriteMode h = .ok h') :
    h' = h ∧ ∀ j, h.op.writeIndex = some j → h.mode j ≠ .immediate := by
  unfold checkWriteMode at hc
  split at hc
  · next hn => cases hc; exact ⟨rfl, fun j hj => by rw [hn] at hj; cases hj⟩
  · next j hj =>
    split at hc
    · cases hc
    · next hm => cases hc; exact ⟨rfl, fun k hk => by rw [hj] at hk; cases hk; exact hm⟩

/-- An accepted word: its sign, its operation, its three mode digits, and no immediate write operand (R62). -/
theorem decodeHeader_eq_ok {w : Word} {h : Header} (hd : decodeHeader w = .ok h) :
    0 ≤ w.toInt ∧ h.op.code = w.toInt.toNat % 100 ∧ h.a.digit = digit 2 w.toInt.toNat ∧
      h.b.digit = digit 3 w.toInt.toNat ∧ h.c.digit = digit 4 w.toInt.toNat ∧
      ∀ j, h.op.writeIndex = some j → h.mode j ≠ .immediate := by
  unfold decodeHeader at hd
  split at hd
  · cases hd
  · next hw =>
    split at hd
    · cases hd
    · next op hop =>
      split at hd
      · cases hd
      · next a ha =>
        split at hd
        · cases hd
        · next b hb =>
          split at hd
          · cases hd
          · next c hc =>
            obtain ⟨rfl, hj⟩ := checkWriteMode_eq_ok hd
            exact ⟨by omega, Op.ofCode_eq_some hop, decodeMode_eq_ok ha, decodeMode_eq_ok hb, decodeMode_eq_ok hc, hj⟩

/-- What a rejection says of the word: a reported mode digit is one of 3..9, a reported write index is 2 or 0 (R59,
    R60). -/
theorem decodeHeader_eq_error {w : Word} {e : DecodeError} (hd : decodeHeader w = .error e) :
    (∀ i d, e = .illegalMode i d → 3 ≤ d ∧ d ≤ 9) ∧ (∀ i, e = .immediateWrite i → i = 2 ∨ i = 0) := by
  have hmode : ∀ i e, decodeMode i w.toInt.toNat = .error e → ∃ d, e = .illegalMode i d ∧ 3 ≤ d ∧ d ≤ 9 := by
    intro i e h
    unfold decodeMode at h
    split at h
    · cases h
    · next hn =>
      cases h
      have h10 : digit (i.val + 2) w.toInt.toNat < 10 := Nat.mod_lt _ (by norm_num)
      rw [Mode.ofDigit_eq_none] at hn
      simp only [List.mem_cons, List.not_mem_nil, or_false, not_or] at hn
      exact ⟨_, rfl, by omega, by omega⟩
  have hwrite : ∀ h e, checkWriteMode h = .error e → ∃ i, e = .immediateWrite i ∧ (i = 2 ∨ i = 0) := by
    intro h e hc
    unfold checkWriteMode at hc
    split at hc
    · cases hc
    · next j hj =>
      split at hc
      · cases hc
        exact ⟨j, rfl, by cases hop : h.op <;> rw [hop] at hj <;> cases hj <;> simp⟩
      · cases hc
  have key : e = .illegalOperation ∨ (∃ i d, e = .illegalMode i d ∧ 3 ≤ d ∧ d ≤ 9) ∨
      (∃ i, e = .immediateWrite i ∧ (i = 2 ∨ i = 0)) := by
    unfold decodeHeader at hd
    split at hd
    · cases hd; exact .inl rfl
    · split at hd
      · cases hd; exact .inl rfl
      · split at hd
        · next h => cases hd; exact .inr (.inl ⟨0, hmode 0 _ h⟩)
        · split at hd
          · next h => cases hd; exact .inr (.inl ⟨1, hmode 1 _ h⟩)
          · split at hd
            · next h => cases hd; exact .inr (.inl ⟨2, hmode 2 _ h⟩)
            · exact .inr (.inr (hwrite _ _ hd))
  rcases key with rfl | ⟨i, d, rfl, hd1, hd2⟩ | ⟨i, rfl, hi⟩
  · exact ⟨fun _ _ h => (DecodeError.noConfusion h), fun _ h => DecodeError.noConfusion h⟩
  · exact ⟨fun _ _ h => by cases h; exact ⟨hd1, hd2⟩, fun _ h => DecodeError.noConfusion h⟩
  · exact ⟨fun _ _ h => DecodeError.noConfusion h, fun _ h => by cases h; exact hi⟩

theorem decode_eq_error {w p q r : Word} {e : DecodeError} (hd : decode w p q r = .error e) :
    decodeHeader w = .error e := by
  unfold decode at hd
  split at hd
  · next h => cases hd; exact h
  · cases hd

/-- Decode of a word with given fields: the fields decide the answer (R62). -/
theorem decodeHeader_of_fields {w : Word} {op : Op} {a b c : Mode} (hw : 0 ≤ w.toInt)
    (hop : w.toInt.toNat % 100 = op.code) (ha : digit 2 w.toInt.toNat = a.digit)
    (hb : digit 3 w.toInt.toNat = b.digit) (hc : digit 4 w.toInt.toNat = c.digit) :
    decodeHeader w = checkWriteMode ⟨op, a, b, c⟩ := by
  have hm : ∀ (i : Fin 3) (m : Mode), digit (i.val + 2) w.toInt.toNat = m.digit → decodeMode i w.toInt.toNat = .ok m
      := by
    intro i m h
    unfold decodeMode
    rw [h, Mode.ofDigit_digit]
  unfold decodeHeader
  rw [if_neg (by omega), hop, Op.ofCode_code]
  simp only [hm 0 a ha, hm 1 b hb, hm 2 c hc]

/-- The operation and parameters of the instruction a header builds (R52). -/
theorem Header.build_op (h : Header) (p q r : Word) : (h.build p q r).op = h.op := by
  unfold Header.build
  cases h.op <;> rfl

theorem Header.build_wellFormed {h : Header} (hj : ∀ j, h.op.writeIndex = some j → h.mode j ≠ .immediate)
    (p q r : Word) : (h.build p q r).wellFormed = true := by
  obtain ⟨op, a, b, c⟩ := h
  cases op <;> cases a <;> cases c <;>
    first | rfl | exact absurd rfl (hj 2 rfl) | exact absurd rfl (hj 0 rfl)

theorem decode_eq_ok {w p q r : Word} {i : Instr} (hd : decode w p q r = .ok i) :
    ∃ h, decodeHeader w = .ok h ∧ i = h.build p q r := by
  unfold decode at hd
  split at hd
  · cases hd
  · next h hh => cases hd; exact ⟨h, hh, rfl⟩

/-- Decode yields only well-formed instructions (R61). -/
theorem wellFormed_of_decode {w p q r : Word} {i : Instr} (hd : decode w p q r = .ok i) : i.wellFormed = true := by
  obtain ⟨h, hh, rfl⟩ := decode_eq_ok hd
  exact Header.build_wellFormed (decodeHeader_eq_ok hh).2.2.2.2.2 p q r

end Sys2Proof
end

