-- ==== Sys2Proof/Laws/Memory.lean ====
section
/-! SUPPORT. The laws of the memory's cell list: read after write, zero fill, load, and that every operation keeps the
canonical form (R34, R35, R39). -/

namespace Sys2Proof.Machine.Memory

/-! ### The canonical form -/

theorem wfFrom_cons {lo a : Nat} {v : Word} {m : Memory} :
    wfFrom lo ((a, v) :: m) = true ↔ lo ≤ a ∧ v ≠ 0 ∧ wfFrom (a + 1) m = true := by
  simp only [wfFrom, Bool.and_eq_true, decide_eq_true_eq, and_assoc]

theorem wfFrom_mono {m : Memory} {lo lo' : Nat} (h : lo ≤ lo') (hm : wfFrom lo' m = true) : wfFrom lo m = true := by
  cases m with
  | nil => rfl
  | cons c m =>
    obtain ⟨ha, hm⟩ := wfFrom_cons.mp hm
    exact wfFrom_cons.mpr ⟨le_trans h ha, hm⟩

theorem wfFrom_consCell {m : Memory} {lo a : Nat} {v : Word} (ha : lo ≤ a) (hm : wfFrom (a + 1) m = true) :
    wfFrom lo (consCell a v m) = true := by
  unfold consCell
  split
  · exact wfFrom_mono (by omega) hm
  · next hv => exact wfFrom_cons.mpr ⟨ha, hv, hm⟩

theorem wfFrom_set {m : Memory} {lo a : Nat} {v : Word} (ha : lo ≤ a) (hm : wfFrom lo m = true) :
    wfFrom lo (set m a v) = true := by
  induction m generalizing lo with
  | nil => exact wfFrom_consCell ha rfl
  | cons c m ih =>
    obtain ⟨b, x⟩ := c
    obtain ⟨hb, hx, hm⟩ := wfFrom_cons.mp hm
    simp only [set]
    split
    · next hab => exact wfFrom_consCell ha (wfFrom_cons.mpr ⟨hab, hx, hm⟩)
    · split
      · next hab => subst hab; exact wfFrom_consCell ha hm
      · next h1 h2 => exact wfFrom_cons.mpr ⟨hb, hx, ih (lo := b + 1) (by omega) hm⟩

theorem wfFrom_zeroFill {m : Memory} {n lo hi : Nat} (hm : wfFrom n m = true) :
    wfFrom n (zeroFill m lo hi) = true := by
  induction m generalizing n with
  | nil => rfl
  | cons c m ih =>
    obtain ⟨b, x⟩ := c
    obtain ⟨hb, hx, hm⟩ := wfFrom_cons.mp hm
    simp only [zeroFill, List.filter_cons]
    split
    · exact wfFrom_cons.mpr ⟨hb, hx, ih hm⟩
    · exact wfFrom_mono (by omega) (ih (n := b + 1) hm)

theorem wfFrom_ofWords (a : Nat) (ws : List Word) : wfFrom a (ofWords a ws) = true := by
  induction ws generalizing a with
  | nil => rfl
  | cons w ws ih => exact wfFrom_consCell le_rfl (ih (a + 1))

/-! ### What a cell holds -/

theorem get_of_lt_lo {m : Memory} {lo a : Nat} (hm : wfFrom lo m = true) (ha : a < lo) : get m a = 0 := by
  induction m generalizing lo with
  | nil => rfl
  | cons c m ih =>
    obtain ⟨b, x⟩ := c
    obtain ⟨hb, -, hm⟩ := wfFrom_cons.mp hm
    rw [get, if_neg (by omega)]
    exact ih hm (by omega)

theorem get_consCell_of_ne {m : Memory} {a b : Nat} {v : Word} (h : b ≠ a) : get (consCell a v m) b = get m b := by
  unfold consCell
  split
  · rfl
  · rw [get, if_neg h]

theorem get_consCell_self {m : Memory} {a : Nat} {v : Word} (hm : get m a = 0) : get (consCell a v m) a = v := by
  unfold consCell
  split
  · next h => rw [h, hm]
  · rw [get, if_pos rfl]

theorem get_set_of_ne {m : Memory} {a b : Nat} {v : Word} (h : b ≠ a) : get (set m a v) b = get m b := by
  induction m with
  | nil => exact get_consCell_of_ne h
  | cons c m ih =>
    obtain ⟨k, x⟩ := c
    simp only [set]
    split
    · exact get_consCell_of_ne h
    · split
      · next hk => subst hk; rw [get_consCell_of_ne h, get, if_neg h]
      · simp only [get, ih]

theorem get_set_self {m : Memory} {lo a : Nat} {v : Word} (hm : wfFrom lo m = true) : get (set m a v) a = v := by
  induction m generalizing lo with
  | nil => exact get_consCell_self rfl
  | cons c m ih =>
    obtain ⟨k, x⟩ := c
    obtain ⟨hk, hx, hm⟩ := wfFrom_cons.mp hm
    simp only [set]
    split
    · next h =>
      apply get_consCell_self
      rw [get, if_neg (by omega)]
      exact get_of_lt_lo hm (by omega)
    · split
      · next h => subst h; exact get_consCell_self (get_of_lt_lo hm (by omega))
      · next h1 h2 => rw [get, if_neg h2]; exact ih hm

theorem get_zeroFill (m : Memory) (lo hi a : Nat) :
    get (zeroFill m lo hi) a = if lo ≤ a ∧ a < hi then 0 else get m a := by
  induction m with
  | nil => simp [zeroFill, get]
  | cons c m ih =>
    obtain ⟨k, x⟩ := c
    have step : zeroFill ((k, x) :: m) lo hi =
        if k < lo ∨ hi ≤ k then (k, x) :: zeroFill m lo hi else zeroFill m lo hi := by
      simp [zeroFill, List.filter_cons]
    rw [step]
    by_cases hk : k < lo ∨ hi ≤ k
    · rw [if_pos hk, get, get, ih]
      by_cases hak : a = k
      · rw [if_pos hak, if_pos hak, if_neg (by omega)]
      · rw [if_neg hak, if_neg hak]
    · rw [if_neg hk, ih, get]
      by_cases hak : a = k
      · rw [if_pos (by omega), if_pos (by omega)]
      · rw [if_neg hak]

theorem get_ofWords (a k : Nat) (ws : List Word) (hk : a ≤ k) : get (ofWords a ws) k = ws.getD (k - a) 0 := by
  induction ws generalizing a with
  | nil => simp [ofWords, get]
  | cons w ws ih =>
    rw [ofWords]
    by_cases h : k = a
    · subst h
      rw [get_consCell_self (get_of_lt_lo (wfFrom_ofWords _ _) (by omega))]
      simp
    · rw [get_consCell_of_ne h, ih (a + 1) (by omega)]
      obtain ⟨d, rfl⟩ : ∃ d, k = a + 1 + d := ⟨k - (a + 1), by omega⟩
      rw [show a + 1 + d - (a + 1) = d by omega, show a + 1 + d - a = d + 1 by omega, List.getD_cons_succ]

/-! ### Bounds of the listed addresses -/

theorem below_mono {m : Memory} {c c' : Nat} (h : c ≤ c') (hm : below c m = true) : below c' m = true := by
  simp only [below, List.all_eq_true, decide_eq_true_eq] at hm ⊢
  exact fun x hx => lt_of_lt_of_le (hm x hx) h

theorem below_consCell {m : Memory} {c a : Nat} {v : Word} (ha : a < c) (hm : below c m = true) :
    below c (consCell a v m) = true := by
  unfold consCell
  split
  · exact hm
  · simpa [below, ha] using hm

theorem below_set {m : Memory} {c a : Nat} {v : Word} (ha : a < c) (hm : below c m = true) :
    below c (set m a v) = true := by
  induction m with
  | nil => exact below_consCell ha hm
  | cons k m ih =>
    obtain ⟨b, x⟩ := k
    have hm' : b < c ∧ below c m = true := by simpa [below] using hm
    simp only [set]
    split
    · exact below_consCell ha hm
    · split
      · exact below_consCell ha hm'.2
      · have h3 := ih hm'.2
        simp only [below, List.all_cons, Bool.and_eq_true, decide_eq_true_eq] at h3 ⊢
        exact ⟨hm'.1, h3⟩

theorem below_zeroFill {m : Memory} {c lo hi : Nat} (hm : below c m = true) : below c (zeroFill m lo hi) = true := by
  simp only [below, zeroFill, List.all_eq_true, decide_eq_true_eq, List.mem_filter] at hm ⊢
  exact fun x hx => hm x hx.1

theorem below_ofWords (a c : Nat) (ws : List Word) (h : a + ws.length ≤ c) : below c (ofWords a ws) = true := by
  induction ws generalizing a with
  | nil => rfl
  | cons w ws ih =>
    simp only [List.length_cons] at h
    exact below_consCell (by omega) (ih (a + 1) (by omega))

/-- Two fills in a row, end to end, are one. -/
theorem zeroFill_zeroFill (m : Memory) {a b c : Nat} (hab : a ≤ b) (hbc : b ≤ c) :
    zeroFill (zeroFill m a b) b c = zeroFill m a c := by
  simp only [zeroFill, List.filter_filter]
  congr 1
  funext x
  rw [Bool.eq_iff_iff]
  simp only [Bool.and_eq_true, decide_eq_true_eq]
  omega

/-- An empty fill changes nothing. -/
theorem zeroFill_empty (m : Memory) (a : Nat) : zeroFill m a a = m := by
  simp only [zeroFill, List.filter_eq_self, decide_eq_true_eq]
  omega

end Sys2Proof.Machine.Memory
end

