-- ==== Sys2Proof/Laws/Capacity.lean ====
section
/-! SUPPORT. The laws of growth (R33 to R36, R40): the doubling loop reaches the least doubled capacity above the
requested address, growth composes, and no growth changes what a program reads. -/

namespace Sys2Proof.Machine

/-! ### The doubling loop -/

theorem doubleUntil_zero (f n : Nat) : doubleUntil f 0 n = 0 := by
  induction f with
  | zero => rfl
  | succ f ih => simp [doubleUntil, growthFactor, ih]

theorem doubleUntil_spec {f c n : Nat} (h : n < c * 2 ^ f) :
    ∃ k, doubleUntil f c n = c * 2 ^ k ∧ n < c * 2 ^ k ∧ ∀ j < k, c * 2 ^ j ≤ n := by
  induction f generalizing c with
  | zero => exact ⟨0, by simp [doubleUntil], by simpa using h, by simp⟩
  | succ f ih =>
    rw [doubleUntil]
    split
    · next hc =>
      have h' : n < growthFactor * c * 2 ^ f := by rw [growthFactor]; rw [pow_succ] at h; nlinarith
      obtain ⟨k, hk, hn, hj⟩ := ih h'
      refine ⟨k + 1, ?_, ?_, ?_⟩
      · rw [hk, growthFactor, pow_succ]; ring
      · rw [growthFactor] at hn; rw [pow_succ]; nlinarith
      · intro j hjk
        cases j with
        | zero => simpa using hc
        | succ j =>
          have := hj j (by omega)
          rw [growthFactor] at this
          rw [pow_succ]; nlinarith
    · next hc => exact ⟨0, by simp, by simpa using hc, by simp⟩

/-- `growTo c n = c * 2^k` with k the least natural number that brings it above `n` (R36). -/
theorem growTo_spec {c : Nat} (hc : 1 ≤ c) (n : Nat) :
    ∃ k, growTo c n = c * 2 ^ k ∧ n < c * 2 ^ k ∧ ∀ j < k, c * 2 ^ j ≤ n := by
  apply doubleUntil_spec
  have h : n < 2 ^ (n.log2 + 1) := Nat.lt_log2_self
  nlinarith

@[simp] theorem growTo_zero (n : Nat) : growTo 0 n = 0 := doubleUntil_zero _ _

theorem lt_growTo {c : Nat} (hc : 1 ≤ c) (n : Nat) : n < growTo c n := by
  obtain ⟨k, hk, hn, _⟩ := growTo_spec hc n
  omega

theorem le_growTo (c n : Nat) : c ≤ growTo c n := by
  rcases Nat.eq_zero_or_pos c with rfl | hc
  · simp
  · obtain ⟨k, hk, _, _⟩ := growTo_spec hc n
    rw [hk]
    exact Nat.le_mul_of_pos_right c (by positivity)

/-- Any doubled capacity above `n` is at least `growTo c n`. -/
theorem growTo_le_of_lt {c n : Nat} (hc : 1 ≤ c) {j : Nat} (h : n < c * 2 ^ j) : growTo c n ≤ c * 2 ^ j := by
  obtain ⟨k, hk, _, hmin⟩ := growTo_spec hc n
  rw [hk]
  have hkj : k ≤ j := by
    by_contra hlt
    have := hmin j (by omega)
    omega
  exact Nat.mul_le_mul_left c (Nat.pow_le_pow_right (by omega) hkj)

theorem growTo_eq_self {c n : Nat} (h : n < c) : growTo c n = c := by
  have h1 : growTo c n ≤ c * 2 ^ 0 := growTo_le_of_lt (by omega) (by simpa using h)
  have h2 := le_growTo c n
  simp at h1
  omega

theorem growTo_mono (c : Nat) {a b : Nat} (h : a ≤ b) : growTo c a ≤ growTo c b := by
  rcases Nat.eq_zero_or_pos c with rfl | hc
  · simp
  · obtain ⟨k, hk, hb, _⟩ := growTo_spec hc b
    rw [hk]
    exact growTo_le_of_lt hc (by omega)

/-- Growth for one address and then for another is growth for the higher one. -/
theorem growTo_growTo (c a b : Nat) : growTo (growTo c a) b = growTo c (max a b) := by
  rcases Nat.eq_zero_or_pos c with rfl | hc
  · simp
  · have hca : 1 ≤ growTo c a := le_trans hc (le_growTo c a)
    apply le_antisymm
    · obtain ⟨k, hk, hm, _⟩ := growTo_spec hc (max a b)
      obtain ⟨i, hi, _, _⟩ := growTo_spec hc a
      have hik : i ≤ k := by
        by_contra hlt
        have h1 := growTo_mono c (le_max_left a b)
        rw [hk, hi] at h1
        have := (Nat.mul_le_mul_left_iff (by omega)).mp h1
        have := (Nat.pow_le_pow_iff_right (by omega : 1 < 2)).mp this
        omega
      have hsplit : growTo c a * 2 ^ (k - i) = c * 2 ^ k := by
        rw [hi, mul_assoc, ← pow_add]
        congr 2
        omega
      rw [hk, ← hsplit]
      exact growTo_le_of_lt hca (by rw [hsplit]; omega)
    · obtain ⟨i, hi, ha, _⟩ := growTo_spec hc a
      obtain ⟨j, hj, hb, _⟩ := growTo_spec hca b
      have h1 : growTo (growTo c a) b = c * 2 ^ (i + j) := by rw [hj, hi, mul_assoc, ← pow_add]
      have h2 : a < growTo (growTo c a) b := lt_of_lt_of_le (lt_growTo hc a) (le_growTo _ b)
      rw [h1] at h2 ⊢
      have hb' : b < c * 2 ^ (i + j) := by rwa [hi, mul_assoc, ← pow_add] at hb
      exact growTo_le_of_lt hc (max_lt h2 hb')

/-! ### Growth of a state -/

/-- Growth changes no value a program can read (R34, R35, R45). -/
@[simp] theorem grow_read (s : State) (n a : Nat) : (s.grow n).read a = s.read a := by
  have h := le_growTo s.cap n
  simp only [State.read, grow_cap, grow_mem, Memory.get_zeroFill]
  split_ifs <;> first | rfl | omega

theorem grow_grow (s : State) (a b : Nat) : (s.grow a).grow b = s.grow (max a b) := by
  have h1 := le_growTo s.cap a
  have h2 := growTo_mono s.cap (le_max_left a b)
  simp only [State.grow, growTo_growTo, Memory.zeroFill_zeroFill _ h1 h2]

theorem grow_eq_self {s : State} {n : Nat} (h : n < s.cap) : s.grow n = s := by
  simp only [State.grow, growTo_eq_self h, Memory.zeroFill_empty]

theorem grow_zero (s : State) : s.grow 0 = s := by
  rcases Nat.eq_zero_or_pos s.cap with h | h
  · simp only [State.grow, h, growTo_zero, Memory.zeroFill_empty]
    rw [← h]
  · exact grow_eq_self h

/-- After growth for `a`, an address fits exactly when it fitted before. -/
theorem grow_fits {s : State} {a : Nat} (h : s.fits a = true) (b : Nat) : (s.grow a).fits b = s.fits b := by
  unfold State.fits at h ⊢
  rw [grow_cfg]
  split at h
  · rfl
  · next m hc =>
    simp only [decide_eq_true_eq] at h
    simp only [grow_cap, growTo_growTo, decide_eq_decide]
    constructor
    · exact fun hm => le_trans (growTo_mono _ (le_max_right a b)) hm
    · intro hb
      rcases le_total a b with hab | hab
      · rwa [max_eq_right hab]
      · rwa [max_eq_left hab]

theorem fits_max {s : State} {a b : Nat} (ha : s.fits a = true) (hb : s.fits b = true) : s.fits (max a b) = true := by
  rcases le_total a b with hab | hab
  · rwa [max_eq_right hab]
  · rwa [max_eq_left hab]

/-! ### Reading and writing a state's memory -/

theorem write_read_of_ne {s : State} {a b : Nat} {v : Word} (h : b ≠ a) : (s.write a v).read b = s.read b := by
  simp only [State.read, write_cap, write_mem, Memory.get_set_of_ne h]

theorem write_read_self {s : State} {a : Nat} {v : Word} (hm : Memory.wf s.mem = true) (ha : a < s.cap) :
    (s.write a v).read a = v := by
  simp only [State.read, write_cap, write_mem, ha, if_true]
  exact Memory.get_set_self hm

/-- The memory of the reset state is in canonical form. -/
theorem reset_memOk : State.reset.memOk = true := rfl

theorem memOk_grow {s : State} (h : s.memOk = true) (n : Nat) : (s.grow n).memOk = true := by
  simp only [State.memOk, Bool.and_eq_true] at h ⊢
  exact ⟨Memory.wfFrom_zeroFill h.1, Memory.below_zeroFill (Memory.below_mono (le_growTo _ _) h.2)⟩

theorem memOk_write {s : State} {a : Nat} {v : Word} (h : s.memOk = true) (ha : a < s.cap) :
    (s.write a v).memOk = true := by
  simp only [State.memOk, Bool.and_eq_true] at h ⊢
  exact ⟨Memory.wfFrom_set (Nat.zero_le _) h.1, Memory.below_set ha h.2⟩

theorem ensureCapacity_eq_some_iff {n : Nat} {s t : State} :
    ensureCapacity n s = some t ↔ s.fits n = true ∧ t = s.grow n := by
  unfold ensureCapacity
  by_cases h : s.fits n = true
  · rw [if_pos h, Option.some_inj]
    exact ⟨fun e => ⟨h, e.symm⟩, fun e => e.2.symm⟩
  · rw [if_neg h]
    exact ⟨fun e => (Option.some_ne_none t e.symm).elim, fun e => (h e.1).elim⟩

end Sys2Proof.Machine
end

