-- ==== Sys2Proof/Laws/Operands.lean ====
section
/-! SUPPORT. What the phases before X do, said once: they raise the first fault of their list of checks (R105), each
check read at the state the step starts from, or they end with the effective addresses and memory grown to the highest
address touched. -/

namespace Sys2Proof.Machine

/-! ### Lists of checks -/

@[simp] theorem firstOf_nil : firstOf [] = none := rfl
@[simp] theorem firstOf_none_cons (l : List (Option FaultRecord)) : firstOf (none :: l) = firstOf l := rfl
@[simp] theorem firstOf_some_cons (r : FaultRecord) (l : List (Option FaultRecord)) : firstOf (some r :: l) = some r
    := rfl

theorem firstOf_append_none {l l' : List (Option FaultRecord)} (h : firstOf l = none) :
    firstOf (l ++ l') = firstOf l' := by
  induction l with
  | nil => rfl
  | cons c l ih => cases c with
    | none => exact ih h
    | some r => exact (Option.some_ne_none r h).elim

theorem firstOf_append_some {l l' : List (Option FaultRecord)} {r : FaultRecord} (h : firstOf l = some r) :
    firstOf (l ++ l') = some r := by
  induction l with
  | nil => exact (Option.some_ne_none r h.symm).elim
  | cons c l ih => cases c with
    | none => exact ih h
    | some r' => exact h

theorem firstOf_append_eq_none {l l' : List (Option FaultRecord)} :
    firstOf (l ++ l') = none ↔ firstOf l = none ∧ firstOf l' = none := by
  constructor
  · intro h
    cases hl : firstOf l with
    | none => exact ⟨rfl, by rwa [firstOf_append_none hl] at h⟩
    | some r => rw [firstOf_append_some hl] at h; exact (Option.some_ne_none r h).elim
  · rintro ⟨h, h'⟩
    rw [firstOf_append_none h, h']

/-- The first fault of a list is one of its entries. -/
theorem mem_of_firstOf {l : List (Option FaultRecord)} {r : FaultRecord} (h : firstOf l = some r) : some r ∈ l := by
  induction l with
  | nil => exact (Option.some_ne_none r h.symm).elim
  | cons c l ih => cases c with
    | none => exact List.mem_cons_of_mem _ (ih h)
    | some r' => rw [firstOf_some_cons] at h; rw [h]; exact List.mem_cons_self

/-! ### Fault entry by its record -/

/-- The state after the entry of the fault that the record `r` tells of (R103). -/
def faultState (r : FaultRecord) (s : State) : State := { s with fault := r, run := .faulted }

@[simp] theorem faultState_mem (r : FaultRecord) (s : State) : (faultState r s).mem = s.mem := rfl
@[simp] theorem faultState_cap (r : FaultRecord) (s : State) : (faultState r s).cap = s.cap := rfl
@[simp] theorem faultState_pc (r : FaultRecord) (s : State) : (faultState r s).pc = s.pc := rfl
@[simp] theorem faultState_rb (r : FaultRecord) (s : State) : (faultState r s).rb = s.rb := rfl
@[simp] theorem faultState_run (r : FaultRecord) (s : State) : (faultState r s).run = .faulted := rfl
@[simp] theorem faultState_fault (r : FaultRecord) (s : State) : (faultState r s).fault = r := rfl
@[simp] theorem faultState_inQ (r : FaultRecord) (s : State) : (faultState r s).inQ = s.inQ := rfl
@[simp] theorem faultState_outQ (r : FaultRecord) (s : State) : (faultState r s).outQ = s.outQ := rfl
@[simp] theorem faultState_outReady (r : FaultRecord) (s : State) : (faultState r s).outReady = s.outReady := rfl
@[simp] theorem faultState_exited (r : FaultRecord) (s : State) : (faultState r s).exited = s.exited := rfl
@[simp] theorem faultState_cfg (r : FaultRecord) (s : State) : (faultState r s).cfg = s.cfg := rfl
@[simp] theorem faultState_read (r : FaultRecord) (s : State) (a : Nat) : (faultState r s).read a = s.read a := rfl

theorem raise_eq_faultState (c : Cause) (w : Option Word) (p : Option FaultParam) (v : Option Int) (s : State) (n :
    Nat) :
    raise c w p v (s.grow n) = faultState (recordAt s c w p v) (s.grow n) := rfl

/-! ### Growth leaves what the checks and the operands read -/

/-- The growths a step may have made by the time it faults: none, or one that fits. -/
def Reaches (s : State) (n : Nat) : Prop := n = 0 ∨ s.fits n = true

theorem Reaches.max {s : State} {a b : Nat} (ha : Reaches s a) (hb : Reaches s b) : Reaches s (max a b) := by
  rcases ha with rfl | ha <;> rcases hb with rfl | hb
  · exact .inl rfl
  · exact .inr (by simpa using hb)
  · exact .inr (by simpa using ha)
  · exact .inr (fits_max ha hb)

theorem Reaches.fits {s : State} {n : Nat} (h : Reaches s n) (b : Nat) : (s.grow n).fits b = s.fits b := by
  rcases h with rfl | h
  · rw [grow_zero]
  · exact grow_fits h b

theorem Reaches.of_grow {s : State} {n m : Nat} (h : Reaches s n) (hm : Reaches (s.grow n) m) : Reaches s m := by
  rcases hm with rfl | hm
  · exact .inl rfl
  · exact .inr (by rwa [h.fits] at hm)

@[simp] theorem grow_instrWord (s : State) (n : Nat) : (s.grow n).instrWord = s.instrWord := by
  simp [State.instrWord]

@[simp] theorem grow_ea (s : State) (n : Nat) (i : Fin 3) (o : Operand) : (s.grow n).ea i o = s.ea i o := rfl

@[simp] theorem grow_addr (s : State) (n : Nat) (i : Fin 3) (o : Operand) : (s.grow n).addr i o = s.addr i o := rfl

@[simp] theorem grow_operandValue (s : State) (n : Nat) (o : Operand) (a : Nat) :
    (s.grow n).operandValue o a = s.operandValue o a := by
  simp [State.operandValue]

@[simp] theorem grow_decodeAt (s : State) (n : Nat) : (s.grow n).decodeAt = s.decodeAt := by
  simp [State.decodeAt]

theorem grow_recordAt (s : State) (n : Nat) : recordAt (s.grow n) = recordAt s := rfl

theorem Reaches.operandFaults {s : State} {n : Nat} (h : Reaches s n) (i : Fin 3) (o : Operand) :
    operandFaults (s.grow n) i o = operandFaults s i o := by
  simp only [Machine.operandFaults, grow_recordAt, grow_ea, grow_addr, grow_instrWord, h.fits]

/-! ### A phase follows its checks -/

/-- The phase `p`, run at the state `s`, raises the first fault of the list `l`, with memory grown no further than
MAX_CAPACITY allows; with no fault in `l` it ends with `a` and memory grown to address `n`. -/
def Follows {α : Type} (l : List (Option FaultRecord)) (s : State) (p : Phase α) (a : α) (n : Nat) : Prop :=
  (firstOf l = none ∧ Reaches s n ∧ p = .ok a (s.grow n)) ∨
  (∃ r m, firstOf l = some r ∧ Reaches s m ∧ p = .stopped (faultState r (s.grow m)))

theorem Follows.bind {α β : Type} {l l' : List (Option FaultRecord)} {s : State} {p : Phase α} {a : α} {n : Nat}
    {k : α → State → Phase β} {b : β} {m : Nat} (h : Follows l s p a n)
    (hk : Reaches s n → Follows l' (s.grow n) (k a (s.grow n)) b m) : Follows (l ++ l') s (p.bind k) b (max n m) := by
  rcases h with ⟨hl, hn, rfl⟩ | ⟨r, m', hl, hm, rfl⟩
  · rcases hk hn with ⟨hl', hm, hp⟩ | ⟨r, m', hl', hm, hp⟩
    · refine .inl ⟨by rw [firstOf_append_none hl, hl'], hn.max (hn.of_grow hm), ?_⟩
      rw [Phase.bind, hp, grow_grow]
    · refine .inr ⟨r, max n m', by rw [firstOf_append_none hl, hl'], hn.max (hn.of_grow hm), ?_⟩
      rw [Phase.bind, hp, grow_grow]
  · exact .inr ⟨r, m', firstOf_append_some hl, hm, rfl⟩

theorem Follows.ok {α : Type} (s : State) (a : α) : Follows [] s (.ok a s) a 0 :=
  .inl ⟨rfl, .inl rfl, by rw [grow_zero]⟩

/-- The same phase, with the highest address written in another way. -/
theorem Follows.top_eq {α : Type} {l : List (Option FaultRecord)} {s : State} {p : Phase α} {a : α} {n m : Nat}
    (h : Follows l s p a n) (e : n = m) : Follows l s p a m := e ▸ h

theorem checkReach_follows (w : Option Word) (p : FaultParam) (a n : Int) (s : State) :
    Follows [ if a < 0 then some (recordAt s .negativeAddress w (some p) (some a)) else none,
        if s.fits n.toNat then none else some (recordAt s .capacityExhausted w (some p) (some n)) ]
      s (checkReach w p a n s) () n.toNat := by
  unfold checkReach
  by_cases ha : a < 0
  · refine .inr ⟨_, 0, by rw [if_pos ha]; rfl, .inl rfl, ?_⟩
    rw [if_pos ha, grow_zero]
    rfl
  · rw [if_neg ha, if_neg ha]
    unfold ensureCapacity
    cases hf : s.fits n.toNat with
    | true => exact .inl ⟨rfl, .inr hf, rfl⟩
    | false => exact .inr ⟨_, 0, rfl, .inl rfl, by rw [grow_zero]; rfl⟩

theorem checkFetch_follows (s : State) : Follows (fetchFaults s) s (checkFetch s) () (s.pc + 3).toNat :=
  checkReach_follows none .fetch s.pc (s.pc + 3) s

theorem resolve_follows (i : Fin 3) (o : Operand) (s : State) :
    Follows (operandFaults s i o) s (resolve i o s) (s.addr i o) (s.addr i o) := by
  have h := (checkReach_follows (some s.instrWord) (.index i) (s.ea i o) (s.ea i o) s).bind (β := Nat)
    (k := fun _ t => .ok (s.ea i o).toNat t) (l' := []) (b := s.addr i o) (m := 0)
    fun _ => Follows.ok (s.grow (s.ea i o).toNat) (s.addr i o)
  rw [Nat.max_zero] at h
  exact h

/-- `resolve` after growth that fits: the same checks, read at the state before the growth. -/
theorem Reaches.resolve_follows {s : State} {n : Nat} (h : Reaches s n) (i : Fin 3) (o : Operand) :
    Follows (Machine.operandFaults s i o) (s.grow n) (resolve i o (s.grow n)) (s.addr i o) (s.addr i o) := by
  have h' := Machine.resolve_follows i o (s.grow n)
  rwa [h.operandFaults] at h'

/-- What R61 raises for an immediate write operand. -/
def writeFault (s : State) (i : Fin 3) (o : Operand) : List (Option FaultRecord) :=
  if o.mode.writable then []
  else [some (recordAt s .immediateWrite (some s.instrWord) (some (.index i)) none)]

theorem writeFault_of_writable {s : State} {i : Fin 3} {o : Operand} (h : o.mode.writable = true) :
    writeFault s i o = [] := if_pos h

theorem checkWrite_follows (s : State) (n : Nat) (i : Fin 3) (o : Operand) :
    Follows (writeFault s i o) (s.grow n) (checkWrite i o (s.grow n)) () 0 := by
  unfold writeFault checkWrite
  cases o.mode.writable with
  | true => exact Follows.ok _ _
  | false =>
    refine .inr ⟨_, 0, rfl, .inl rfl, ?_⟩
    rw [grow_zero]
    simp only [raiseDecode, grow_instrWord]
    rfl

/-- The highest address a step touches: the fetch span and the effective addresses. -/
def State.top (s : State) (l : List Nat) : Nat := l.foldl max (s.pc + 3).toNat

theorem phasesRRW_follows (a b d : Operand) (s : State) :
    Follows (fetchFaults s ++ writeFault s 2 d ++ (operandFaults s 0 a ++ operandFaults s 1 b ++ operandFaults s 2 d))
      s (phasesRRW a b d s) (s.addr 0 a, s.addr 1 b, s.addr 2 d)
      (s.top [s.addr 0 a, s.addr 1 b, s.addr 2 d]) := by
  have h := (checkFetch_follows s).bind (β := Nat × Nat × Nat)
    (k := fun _ s0 => (checkWrite 2 d s0).bind fun _ s0 => (resolve 0 a s0).bind fun x s1 =>
      (resolve 1 b s1).bind fun y s2 => (resolve 2 d s2).bind fun z s3 => .ok (x, y, z) s3)
    fun h0 => (checkWrite_follows s _ 2 d).bind fun _ => by
      rw [grow_zero]
      exact (h0.resolve_follows 0 a).bind fun h1 => by
        rw [grow_grow]
        exact ((h0.max (h0.of_grow h1)).resolve_follows 1 b).bind fun h2 => by
          have h3 := (h0.max (h0.of_grow h1)).max ((h0.max (h0.of_grow h1)).of_grow h2)
          rw [grow_grow]
          exact (h3.resolve_follows 2 d).bind fun _ => Follows.ok _ _
  simp only [List.append_nil, List.append_assoc] at h ⊢
  exact h.top_eq (by simp only [State.top, List.foldl]; omega)

theorem phasesRR_follows (a b : Operand) (s : State) :
    Follows (fetchFaults s ++ (operandFaults s 0 a ++ operandFaults s 1 b)) s (phasesRR a b s)
      (s.addr 0 a, s.addr 1 b) (s.top [s.addr 0 a, s.addr 1 b]) := by
  have h := (checkFetch_follows s).bind (β := Nat × Nat)
    (k := fun _ s0 => (resolve 0 a s0).bind fun x s1 => (resolve 1 b s1).bind fun y s2 => .ok (x, y) s2)
    fun h0 => (h0.resolve_follows 0 a).bind fun h1 => by
      rw [grow_grow]
      exact ((h0.max (h0.of_grow h1)).resolve_follows 1 b).bind fun _ => Follows.ok _ _
  simp only [List.append_nil] at h ⊢
  exact h.top_eq (by simp only [State.top, List.foldl]; omega)

theorem phasesR_follows (a : Operand) (s : State) :
    Follows (fetchFaults s ++ operandFaults s 0 a) s (phasesR a s) (s.addr 0 a) (s.top [s.addr 0 a]) :=
  (checkFetch_follows s).bind fun h0 => h0.resolve_follows 0 a

theorem phasesW_follows (d : Operand) (s : State) :
    Follows (fetchFaults s ++ writeFault s 0 d ++ operandFaults s 0 d) s (phasesW d s) (s.addr 0 d)
      (s.top [s.addr 0 d]) := by
  have h := (checkFetch_follows s).bind (β := Nat)
    (k := fun _ s0 => (checkWrite 0 d s0).bind fun _ s0 => resolve 0 d s0)
    fun h0 => (checkWrite_follows s _ 0 d).bind fun _ => by
      rw [grow_zero]
      exact h0.resolve_follows 0 d
  simp only [List.append_assoc] at h ⊢
  exact h.top_eq (by simp only [State.top, List.foldl]; omega)

/-! ### The hypotheses of the claims are the checks -/

theorem firstOf_fetchFaults {s : State} : firstOf (fetchFaults s) = none ↔ s.fetchOk = true := by
  unfold fetchFaults State.fetchOk
  by_cases hp : s.pc < 0
  · simp [hp]
  · cases hf : s.fits (s.pc + 3).toNat <;> simp [hp, not_lt.mp hp]

theorem firstOf_operandFaults {s : State} {i : Fin 3} {o : Operand} :
    firstOf (operandFaults s i o) = none ↔ s.operandOk i o = true := by
  unfold operandFaults State.operandOk State.addr
  by_cases hp : s.ea i o < 0
  · simp [hp]
  · cases hf : s.fits (s.ea i o).toNat <;> simp [hp, not_lt.mp hp]

end Sys2Proof.Machine
end

