-- ==== Sys2Proof/Laws/Exec.lean ====
section
/-! SUPPORT. What `exec` and `step` do, said once for every instruction: the first fault of the list of checks, or a
    wait
that changes nothing, or the one committed state. Later proofs cite `exec_cases` and `step_cases` and never unfold a
meaning. -/

namespace Sys2Proof.Machine

/-! ### Range of results -/

theorem toInt_inI64 (w : Word) : inI64 w.toInt = true := by
  have h1 := BitVec.le_toInt w
  have h2 := BitVec.toInt_lt (x := w)
  simp only [inI64, Bool.and_eq_true, decide_eq_true_eq]
  exact ⟨by simpa using h1, by simpa using h2⟩

theorem toInt_ofInt_of_inI64 {v : Int} (h : inI64 v = true) : (BitVec.ofInt 64 v : Word).toInt = v := by
  simp only [inI64, Bool.and_eq_true, decide_eq_true_eq] at h
  rw [BitVec.toInt_ofInt]
  apply Int.bmod_eq_of_le_mul_two <;> norm_num <;> omega

theorem toWord?_of_inI64 {v : Int} (h : inI64 v = true) : toWord? v = some (BitVec.ofInt 64 v) := if_pos h

theorem toWord?_of_not_inI64 {v : Int} (h : inI64 v = false) : toWord? v = none := by simp [toWord?, h]

@[simp] theorem overflowFault_eq_none {s : State} {r : Int} : overflowFault s r = none ↔ inI64 r = true := by
  unfold overflowFault
  cases inI64 r <;> simp

/-! ### The checks and the committed state of an instruction -/

/-- The decode check of the write operand, which a decoded instruction passes (R61). -/
def writeFaults (s : State) : Instr → List (Option FaultRecord)
  | .add _ _ d => writeFault s 2 d
  | .mul _ _ d => writeFault s 2 d
  | .inp d => writeFault s 0 d
  | .out _ => []
  | .jt _ _ => []
  | .jf _ _ => []
  | .lt _ _ d => writeFault s 2 d
  | .eq _ _ d => writeFault s 2 d
  | .arb _ => []
  | .hlt => []

theorem writeFaults_of_wellFormed {s : State} {i : Instr} (h : i.wellFormed = true) : writeFaults s i = [] := by
  cases i <;> first | rfl | exact writeFault_of_writable h

/-- All checks of the step of `i`, in order. -/
def checks (s : State) (i : Instr) : List (Option FaultRecord) := fetchFaults s ++ writeFaults s i ++ executeFaults s i

/-- The effective addresses of an instruction. -/
def addrs (s : State) : Instr → List Nat
  | .add a b d => [s.addr 0 a, s.addr 1 b, s.addr 2 d]
  | .mul a b d => [s.addr 0 a, s.addr 1 b, s.addr 2 d]
  | .inp d => [s.addr 0 d]
  | .out a => [s.addr 0 a]
  | .jt c t => [s.addr 0 c, s.addr 1 t]
  | .jf c t => [s.addr 0 c, s.addr 1 t]
  | .lt a b d => [s.addr 0 a, s.addr 1 b, s.addr 2 d]
  | .eq a b d => [s.addr 0 a, s.addr 1 b, s.addr 2 d]
  | .arb a => [s.addr 0 a]
  | .hlt => []

/-- Memory grown as the completed step of `i` grows it. -/
def grown (s : State) (i : Instr) : State := s.grow (s.top (addrs s i))

/-- The state a completed step of `i` leaves (R77, R78), by instruction. -/
def commit (s : State) (i : Instr) : State :=
  match i with
  | .add a b d => advance 4 ((grown s i).write (s.addr 2 d) (BitVec.ofInt 64 (s.val 0 a + s.val 1 b)))
  | .mul a b d => advance 4 ((grown s i).write (s.addr 2 d) (BitVec.ofInt 64 (s.val 0 a * s.val 1 b)))
  | .inp d => advance 2 (({ grown s i with inQ := s.inQ.tail }).write (s.addr 0 d) (s.inQ.headD 0))
  | .out a => advance 2 { grown s i with outQ := s.outQ ++ [.data (s.operandValue a (s.addr 0 a))] }
  | .jt c t => if s.val 0 c ≠ 0 then jumpTo (s.operandValue t (s.addr 1 t)) (grown s i) else advance 3 (grown s i)
  | .jf c t => if s.val 0 c = 0 then jumpTo (s.operandValue t (s.addr 1 t)) (grown s i) else advance 3 (grown s i)
  | .lt a b d => advance 4 ((grown s i).write (s.addr 2 d) (boolWord (decide (s.val 0 a < s.val 1 b))))
  | .eq a b d => advance 4 ((grown s i).write (s.addr 2 d) (boolWord (decide (s.val 0 a = s.val 1 b))))
  | .arb a => advance 2 (setRb (BitVec.ofInt 64 (s.rb.toInt + s.val 0 a)) (grown s i))
  | .hlt => halt (grown s i)

/-- The step of `i` faults: `r` is the first failing check, and its entry is all that happens but growth. -/
def Faults (s : State) (i : Instr) (o : Host.Outcome State Fault Refusal) : Prop :=
  ∃ r n, firstOf (checks s i) = some r ∧ Reaches s n ∧ o = .next (faultState r (s.grow n))

/-- The step of `i` raises no fault: it waits at a port, or commits. -/
def Completes (s : State) (i : Instr) (o : Host.Outcome State Fault Refusal) : Prop :=
  firstOf (checks s i) = none ∧ Reaches s (s.top (addrs s i)) ∧
    o = .next (if needsInput i s || needsOutput i s then s else commit s i)

/-! ### Each instruction's meaning -/

theorem arithmetic_cases (f : Int → Int → Int) (a b d : Operand) (s : State) :
    (∃ r n, firstOf ((fetchFaults s ++ writeFault s 2 d) ++ (operandFaults s 0 a ++ operandFaults s 1 b ++
        operandFaults s 2 d ++ [overflowFault s (f (s.val 0 a) (s.val 1 b))])) = some r ∧ Reaches s n ∧
      arithmetic f a b d s = .next (faultState r (s.grow n))) ∨
    (firstOf ((fetchFaults s ++ writeFault s 2 d) ++ (operandFaults s 0 a ++ operandFaults s 1 b ++
        operandFaults s 2 d ++ [overflowFault s (f (s.val 0 a) (s.val 1 b))])) = none ∧
      Reaches s (s.top [s.addr 0 a, s.addr 1 b, s.addr 2 d]) ∧
      arithmetic f a b d s = .next (advance 4 ((s.grow (s.top [s.addr 0 a, s.addr 1 b, s.addr 2 d])).write (s.addr 2 d)
        (BitVec.ofInt 64 (f (s.val 0 a) (s.val 1 b)))))) := by
  rw [← List.append_assoc]
  unfold arithmetic
  rcases phasesRRW_follows a b d s with ⟨hl, hn, hp⟩ | ⟨r, n, hl, hn, hp⟩
  · rw [hp, firstOf_append_none hl]
    simp only [grow_operandValue]
    cases hv : inI64 (f (s.val 0 a) (s.val 1 b)) with
    | true =>
      refine .inr ⟨by rw [overflowFault_eq_none.mpr hv]; rfl, hn, ?_⟩
      simp only [State.val] at hv ⊢
      rw [toWord?_of_inI64 hv]
    | false =>
      refine .inl ⟨_, _, by simp only [overflowFault, hv]; rfl, hn, ?_⟩
      simp only [State.val] at hv ⊢
      rw [toWord?_of_not_inI64 hv, grow_instrWord]
      rfl
  · rw [hp]
    exact .inl ⟨r, n, firstOf_append_some hl, hn, rfl⟩

theorem comparison_cases (test : Word → Word → Bool) (a b d : Operand) (s : State) :
    (∃ r n, firstOf ((fetchFaults s ++ writeFault s 2 d) ++ (operandFaults s 0 a ++ operandFaults s 1 b ++
        operandFaults s 2 d)) = some r ∧ Reaches s n ∧
      comparison test a b d s = .next (faultState r (s.grow n))) ∨
    (firstOf ((fetchFaults s ++ writeFault s 2 d) ++ (operandFaults s 0 a ++ operandFaults s 1 b ++
        operandFaults s 2 d)) = none ∧
      Reaches s (s.top [s.addr 0 a, s.addr 1 b, s.addr 2 d]) ∧
      comparison test a b d s = .next (advance 4 ((s.grow (s.top [s.addr 0 a, s.addr 1 b, s.addr 2 d])).write (s.addr
          2 d)
        (boolWord (test (s.operandValue a (s.addr 0 a)) (s.operandValue b (s.addr 1 b))))))) := by
  unfold comparison
  rcases phasesRRW_follows a b d s with ⟨hl, hn, hp⟩ | ⟨r, n, hl, hn, hp⟩
  · rw [hp]
    exact .inr ⟨hl, hn, by simp only [grow_operandValue]⟩
  · rw [hp]
    exact .inl ⟨r, n, hl, hn, rfl⟩

theorem branch_cases (taken : Word → Bool) (c t : Operand) (s : State) :
    (∃ r n, firstOf (fetchFaults s ++ (operandFaults s 0 c ++ operandFaults s 1 t)) = some r ∧ Reaches s n ∧
      branch taken c t s = .next (faultState r (s.grow n))) ∨
    (firstOf (fetchFaults s ++ (operandFaults s 0 c ++ operandFaults s 1 t)) = none ∧
      Reaches s (s.top [s.addr 0 c, s.addr 1 t]) ∧
      branch taken c t s = .next (if taken (s.operandValue c (s.addr 0 c)) = true
        then jumpTo (s.operandValue t (s.addr 1 t)) (s.grow (s.top [s.addr 0 c, s.addr 1 t]))
        else advance 3 (s.grow (s.top [s.addr 0 c, s.addr 1 t])))) := by
  unfold branch
  rcases phasesRR_follows c t s with ⟨hl, hn, hp⟩ | ⟨r, n, hl, hn, hp⟩
  · rw [hp]
    refine .inr ⟨hl, hn, ?_⟩
    simp only [grow_operandValue]
    split <;> rfl
  · rw [hp]
    exact .inl ⟨r, n, hl, hn, rfl⟩

theorem needsInput_inp {s : State} {d : Operand} (h : firstOf (checks s (.inp d)) = none) :
    needsInput (.inp d) s = s.inQ.isEmpty := by
  rcases phasesW_follows d s with ⟨hl, hn, hp⟩ | ⟨r, n, hl, hn, hp⟩
  · simp only [needsInput, hp]
  · rw [checks, writeFaults, executeFaults, hl] at h
    exact (Option.some_ne_none r h).elim

theorem needsOutput_out {s : State} {a : Operand} (h : firstOf (checks s (.out a)) = none) :
    needsOutput (.out a) s = !s.outReady := by
  rcases phasesR_follows a s with ⟨hl, hn, hp⟩ | ⟨r, n, hl, hn, hp⟩
  · simp only [needsOutput, hp]
  · rw [checks, writeFaults, executeFaults, List.append_nil, hl] at h
    exact (Option.some_ne_none r h).elim

theorem execInp_cases (d : Operand) (s : State) : Faults s (.inp d) (execInp d s) ∨ Completes s (.inp d) (execInp d
    s) := by
  unfold Faults Completes
  rcases phasesW_follows d s with ⟨hl, hn, hp⟩ | ⟨r, n, hl, hn, hp⟩
  · refine .inr ⟨hl, hn, ?_⟩
    rw [needsInput_inp hl]
    unfold execInp
    rw [hp]
    cases hq : s.inQ with
    | nil => simp [portRead, hq]
    | cons x q => simp [portRead, hq, commit, needsOutput, grown, addrs]
  · refine .inl ⟨r, n, hl, hn, ?_⟩
    unfold execInp
    rw [hp]

theorem execOut_cases (a : Operand) (s : State) : Faults s (.out a) (execOut a s) ∨ Completes s (.out a) (execOut a
    s) := by
  unfold Faults Completes
  have hc : checks s (.out a) = fetchFaults s ++ operandFaults s 0 a := by
    rw [checks, writeFaults, executeFaults, List.append_nil]
  rcases phasesR_follows a s with ⟨hl, hn, hp⟩ | ⟨r, n, hl, hn, hp⟩
  · refine .inr ⟨hc ▸ hl, hn, ?_⟩
    rw [needsOutput_out (hc ▸ hl)]
    unfold execOut
    rw [hp]
    cases hq : s.outReady with
    | false => simp [portWrite, hq]
    | true => simp [portWrite, hq, commit, needsInput, grown, addrs]
  · refine .inl ⟨r, n, hc ▸ hl, hn, ?_⟩
    unfold execOut
    rw [hp]

theorem execArb_cases (a : Operand) (s : State) : Faults s (.arb a) (execArb a s) ∨ Completes s (.arb a) (execArb a
    s) := by
  unfold Faults Completes
  have hc : checks s (.arb a) = (fetchFaults s ++ operandFaults s 0 a) ++ [overflowFault s (s.rb.toInt + s.val 0 a)]
      := by
    rw [checks, writeFaults, executeFaults, List.append_nil, List.append_assoc]
  rw [hc]
  unfold execArb
  rcases phasesR_follows a s with ⟨hl, hn, hp⟩ | ⟨r, n, hl, hn, hp⟩
  · rw [hp, firstOf_append_none hl]
    simp only [grow_operandValue, grow_rb]
    cases hv : inI64 (s.rb.toInt + s.val 0 a) with
    | true =>
      refine .inr ⟨by rw [overflowFault_eq_none.mpr hv]; rfl, hn, ?_⟩
      simp only [State.val] at hv
      rw [toWord?_of_inI64 hv]
      simp [commit, needsInput, needsOutput, grown, addrs, State.val]
    | false =>
      refine .inl ⟨_, _, by simp only [overflowFault, hv]; rfl, hn, ?_⟩
      simp only [State.val] at hv ⊢
      rw [toWord?_of_not_inI64 hv, grow_instrWord]
      rfl
  · rw [hp]
    exact .inl ⟨r, n, firstOf_append_some hl, hn, rfl⟩

theorem execHlt_cases (s : State) : Faults s .hlt (execHlt s) ∨ Completes s .hlt (execHlt s) := by
  unfold Faults Completes
  have hc : checks s .hlt = fetchFaults s := by
    rw [checks, writeFaults, executeFaults, List.append_nil, List.append_nil]
  rw [hc]
  unfold execHlt
  rcases checkFetch_follows s with ⟨hl, hn, hp⟩ | ⟨r, n, hl, hn, hp⟩
  · rw [hp]
    exact .inr ⟨hl, hn, rfl⟩
  · rw [hp]
    exact .inl ⟨r, n, hl, hn, rfl⟩

theorem isTrue_operandValue (s : State) (i : Fin 3) (o : Operand) :
    isTrue (s.operandValue o (s.addr i o)) = decide (s.val i o ≠ 0) := rfl

/-- What `exec` does, for every instruction and every state. -/
theorem exec_cases (i : Instr) (s : State) : Faults s i (exec i s) ∨ Completes s i (exec i s) := by
  cases i with
  | add a b d => exact arithmetic_cases (fun x y => x + y) a b d s
  | mul a b d => exact arithmetic_cases (fun x y => x * y) a b d s
  | inp d => exact execInp_cases d s
  | out a => exact execOut_cases a s
  | jt c t =>
    have h := branch_cases isTrue c t s
    simp only [Faults, Completes, checks, writeFaults, List.append_nil]
    simpa [executeFaults, addrs, needsInput, needsOutput, commit, grown, exec, execJt, isTrue_operandValue] using h
  | jf c t =>
    have h := branch_cases (fun x => !isTrue x) c t s
    simp only [Faults, Completes, checks, writeFaults, List.append_nil]
    simpa [executeFaults, addrs, needsInput, needsOutput, commit, grown, exec, execJf, isTrue_operandValue] using h
  | lt a b d => exact comparison_cases lessThan a b d s
  | eq a b d => exact comparison_cases equalTo a b d s
  | arb a => exact execArb_cases a s
  | hlt => exact execHlt_cases s

/-- `exec` always answers a next state. -/
theorem exec_next (i : Instr) (s : State) : ∃ t, exec i s = .next t := by
  rcases exec_cases i s with ⟨_, _, _, _, h⟩ | ⟨_, _, h⟩ <;> exact ⟨_, h⟩

end Sys2Proof.Machine
end

