-- ==== Sys2Proof/Laws/Step.lean ====
section
/-! SUPPORT. What a step does, said once: the first fault of R105's list, or a wait, or the decoded instruction's
    committed
state. -/

namespace Sys2Proof.Machine

theorem wellFormed_of_decodeAt {s : State} {i : Instr} (h : s.decodeAt = .ok i) : i.wellFormed = true :=
  wellFormed_of_decode h

/-- The checks of a decoded instruction are R105's list. -/
theorem firstFault_of_decodeAt {s : State} {i : Instr} (h : s.decodeAt = .ok i) :
    firstFault s = firstOf (checks s i) := by
  have hd : decodeFault s = none := by rw [decodeFault, h]
  unfold firstFault checks
  rw [h, hd, writeFaults_of_wellFormed (wellFormed_of_decodeAt h), List.append_nil]
  cases hf : firstOf (fetchFaults s) with
  | none => rw [firstOf_append_none hf, firstOf_append_none hf]; rfl
  | some r => rw [firstOf_append_some hf, firstOf_append_some hf]

theorem raiseDecode_grow {s : State} {e : DecodeError} (h : s.decodeAt = .error e) (n : Nat) :
    ∃ r, decodeFault s = some r ∧ raiseDecode e (s.grow n) = faultState r (s.grow n) := by
  unfold decodeFault
  rw [h]
  cases e <;> exact ⟨_, rfl, by simp only [raiseDecode, grow_instrWord]; rfl⟩

/-- The fetch: the first fault of items 1 to 5 of R105, or the instruction at PC, with memory grown for PC + 3. -/
theorem fetch_cases (s : State) :
    (∃ r n, firstFault s = some r ∧ Reaches s n ∧ fetch s = .stopped (faultState r (s.grow n))) ∨
    (∃ i, s.decodeAt = .ok i ∧ s.fetchOk = true ∧ fetch s = .ok i (s.grow (s.pc + 3).toNat)) := by
  unfold fetch
  rcases checkFetch_follows s with ⟨hl, hn, hp⟩ | ⟨r, n, hl, hn, hp⟩
  · rw [hp]
    simp only [Phase.bind, grow_decodeAt]
    cases hd : s.decodeAt with
    | ok i => exact .inr ⟨i, rfl, firstOf_fetchFaults.mp hl, rfl⟩
    | error e =>
      obtain ⟨r, hr, hs⟩ := raiseDecode_grow hd (s.pc + 3).toNat
      refine .inl ⟨r, _, ?_, hn, congrArg Phase.stopped hs⟩
      unfold firstFault
      rw [firstOf_append_none hl, hr, firstOf_some_cons]
  · rw [hp]
    exact .inl ⟨r, n, firstOf_append_some hl, hn, rfl⟩

/-- What a Running instance's step does, for every state. -/
theorem step_cases {s : State} (hr : s.run = .running) :
    (∃ r n, firstFault s = some r ∧ Reaches s n ∧ step s = .next (faultState r (s.grow n))) ∨
    (∃ i, s.decodeAt = .ok i ∧ firstFault s = none ∧ step s = exec i s ∧ Completes s i (exec i s)) := by
  unfold step
  rw [hr]
  rcases fetch_cases s with ⟨r, n, hf, hn, hp⟩ | ⟨i, hi, _, hp⟩
  · exact .inl ⟨r, n, hf, hn, by rw [hp]⟩
  · rw [hp]
    rcases exec_cases i s with ⟨r, n, hf, hn, he⟩ | hc
    · exact .inl ⟨r, n, by rw [firstFault_of_decodeAt hi, hf], hn, he⟩
    · exact .inr ⟨i, hi, by rw [firstFault_of_decodeAt hi, hc.1], rfl, hc⟩

/-- A step of a Halted or Faulted instance has no effect (R71, R80). -/
theorem step_terminal {s : State} (h : s.run ≠ .running) : step s = .next s := by
  unfold step
  split
  · next hr => exact absurd hr h
  · rfl
  · rfl

/-! ### The record of a fault is one that R102 describes -/

/-- The record names a cause, the step's PC, the fetched word or NONE for the fetch itself, and the cause's fields. -/
def RecordOk (s : State) (r : FaultRecord) : Prop :=
  r.cause ≠ .none ∧ r.pc = some s.pc ∧ (r.word = none ∨ r.word = some s.instrWord) ∧
    (r.word = none ↔ r.param = some .fetch) ∧ r.wellShaped = true

theorem recordOk_fetch {s : State} {l : List (Option FaultRecord)} {r : FaultRecord}
    (h : firstOf (fetchFaults s ++ l) = some r) : RecordOk s r ∨ firstOf l = some r := by
  unfold fetchFaults at h
  by_cases hp : s.pc < 0
  · simp only [hp, if_true, List.cons_append, firstOf_some_cons, Option.some_inj] at h
    subst h
    exact .inl (by simp [RecordOk, recordAt, FaultRecord.wellShaped, hp])
  · cases hf : s.fits (s.pc + 3).toNat
    · simp [hp, hf] at h
      subst h
      exact .inl (by simp [RecordOk, recordAt, FaultRecord.wellShaped]; omega)
    · simp [hp, hf] at h
      exact .inr h

theorem recordOk_operand {s : State} {i : Fin 3} {o : Operand} {l : List (Option FaultRecord)} {r : FaultRecord}
    (h : firstOf (operandFaults s i o ++ l) = some r) : RecordOk s r ∨ firstOf l = some r := by
  unfold operandFaults at h
  by_cases hp : s.ea i o < 0
  · simp only [hp, if_true, List.cons_append, firstOf_some_cons, Option.some_inj] at h
    subst h
    exact .inl (by simp [RecordOk, recordAt, FaultRecord.wellShaped, hp])
  · cases hf : s.fits (s.addr i o)
    · simp [hp, hf] at h
      subst h
      exact .inl (by simp [RecordOk, recordAt, FaultRecord.wellShaped]; omega)
    · simp [hp, hf] at h
      exact .inr h

theorem recordOk_overflow {s : State} {v : Int} {r : FaultRecord} (h : firstOf [overflowFault s v] = some r) :
    RecordOk s r := by
  unfold overflowFault at h
  cases hv : inI64 v <;> simp [hv] at h
  subst h
  simp [RecordOk, recordAt, FaultRecord.wellShaped, hv]

theorem recordOk_decode {s : State} {l : List (Option FaultRecord)} {r : FaultRecord}
    (h : firstOf (decodeFault s :: l) = some r) : RecordOk s r ∨ firstOf l = some r := by
  unfold decodeFault at h
  cases hd : s.decodeAt with
  | ok i => rw [hd] at h; exact .inr h
  | error e =>
    rw [hd] at h
    have he := decodeHeader_eq_error (decode_eq_error hd)
    cases e with
    | illegalOperation => cases h; exact .inl (by simp [RecordOk, recordAt, FaultRecord.wellShaped])
    | illegalMode i d =>
      have hb := he.1 i d rfl
      cases h
      exact .inl (by simp [RecordOk, recordAt, FaultRecord.wellShaped]; omega)
    | immediateWrite i =>
      have hb := he.2 i rfl
      cases h
      exact .inl (by rcases hb with rfl | rfl <;> simp [RecordOk, recordAt, FaultRecord.wellShaped])

theorem recordOk_execute {s : State} {i : Instr} {r : FaultRecord} (h : firstOf (executeFaults s i) = some r) :
    RecordOk s r := by
  cases i <;> simp only [executeFaults, List.append_assoc] at h
  case add | mul =>
    exact (recordOk_operand h).elim id fun h => (recordOk_operand h).elim id fun h =>
      (recordOk_operand h).elim id recordOk_overflow
  case lt | eq =>
    rw [← List.append_nil (operandFaults s 2 _)] at h
    exact (recordOk_operand h).elim id fun h => (recordOk_operand h).elim id fun h =>
      (recordOk_operand h).elim id fun h => nomatch h
  case jt | jf =>
    rw [← List.append_nil (operandFaults s 1 _)] at h
    exact (recordOk_operand h).elim id fun h => (recordOk_operand h).elim id fun h => nomatch h
  case inp | out =>
    rw [← List.append_nil (operandFaults s 0 _)] at h
    exact (recordOk_operand h).elim id fun h => nomatch h
  case arb => exact (recordOk_operand h).elim id recordOk_overflow
  case hlt => exact nomatch h

theorem recordOk_of_firstFault {s : State} {r : FaultRecord} (h : firstFault s = some r) : RecordOk s r := by
  unfold firstFault at h
  refine (recordOk_fetch h).elim id fun h => (recordOk_decode h).elim id fun h => ?_
  split at h
  · exact recordOk_execute h
  · exact nomatch h

end Sys2Proof.Machine
end

