-- ==== Sys2Proof/Laws/Commit.lean ====
section
/-! SUPPORT. Instructions whose checks pass or fail, what the committed state holds, field by field, and that the phases
before X end without a fault when the hypotheses of the claims hold. -/

namespace Sys2Proof.Machine

/-! ### Checks that pass -/

/-- The checks of a well-formed instruction pass when the fetch and the operands do. -/
theorem checks_none {s : State} {i : Instr} (hw : i.wellFormed = true) (hf : s.fetchOk = true) (he : firstOf
    (executeFaults s i) = none) :
   firstOf (checks s i) = none := by
  unfold checks
  rw [writeFaults_of_wellFormed hw, List.append_nil, firstOf_append_none (firstOf_fetchFaults.mpr hf), he]

/-- With no failing check, `exec` waits or commits. -/
theorem exec_completes {s : State} {i : Instr} (h : firstOf (checks s i) = none) : Completes s i (exec i s) := by
  rcases exec_cases i s with ⟨r, n, h1, _⟩ | h'
  · rw [h] at h1; cases h1
  · exact h'

/-- With a failing check, `exec` enters the fault of the first one. -/
theorem exec_faults {s : State} {i : Instr} {r} (h : firstOf (checks s i) = some r) : ∃ n, Reaches s n ∧ exec i s =
    .next (faultState r (s.grow n)) := by
  rcases exec_cases i s with ⟨r', n, h1, h2, h3⟩ | ⟨h', _⟩
  · rw [h] at h1; cases h1; exact ⟨n, h2, h3⟩
  · rw [h] at h'; cases h'

theorem operandFaults_two {s : State} {a b : Operand} (ha : s.operandOk 0 a = true) (hb : s.operandOk 1 b = true) :
   firstOf (operandFaults s 0 a ++ operandFaults s 1 b) = none := by
  rw [firstOf_append_none (firstOf_operandFaults.mpr ha), (firstOf_operandFaults.mpr hb)]

theorem operandFaults_three {s : State} {a b d : Operand} {l} (ha : s.operandOk 0 a = true) (hb : s.operandOk 1 b =
    true) (hd : s.operandOk 2 d = true) :
   firstOf (operandFaults s 0 a ++ operandFaults s 1 b ++ operandFaults s 2 d ++ l) = firstOf l := by
  rw [List.append_assoc, List.append_assoc, firstOf_append_none (firstOf_operandFaults.mpr ha), firstOf_append_none
      (firstOf_operandFaults.mpr hb), firstOf_append_none (firstOf_operandFaults.mpr hd)]

theorem phasesRRW_ok {s : State} {a b d : Operand} (hw : d.mode.writable = true) (hf : s.fetchOk = true) (ha :
    s.operandOk 0 a = true) (hb : s.operandOk 1 b = true) (hd : s.operandOk 2 d = true) :
   phasesRRW a b d s = .ok (s.addr 0 a, s.addr 1 b, s.addr 2 d) (s.grow (s.top [s.addr 0 a, s.addr 1 b, s.addr 2 d]))
       := by
  have hl : firstOf (fetchFaults s ++ writeFault s 2 d ++ (operandFaults s 0 a ++ operandFaults s 1 b ++
      operandFaults s 2 d)) = none := by
    rw [writeFault_of_writable hw, List.append_nil, firstOf_append_none (firstOf_fetchFaults.mpr hf), ←
        List.append_nil (_ ++ operandFaults s 2 d), operandFaults_three ha hb hd]; rfl
  rcases phasesRRW_follows a b d s with ⟨_, _, h⟩ | ⟨r, m, h, _⟩
  · exact h
  · rw [hl] at h; cases h

theorem phasesR_ok {s : State} {a : Operand} (hf : s.fetchOk = true) (ha : s.operandOk 0 a = true) :
   phasesR a s = .ok (s.addr 0 a) (s.grow (s.top [s.addr 0 a])) := by
  have hl : firstOf (fetchFaults s ++ operandFaults s 0 a) = none := by
    rw [firstOf_append_none (firstOf_fetchFaults.mpr hf), firstOf_operandFaults.mpr ha]
  rcases phasesR_follows a s with ⟨_, _, h⟩ | ⟨r, m, h, _⟩
  · exact h
  · rw [hl] at h; cases h

/-! ### The highest address a step touches -/

theorem le_foldl_max (l : List Nat) (m : Nat) : m ≤ l.foldl max m := by
  induction l generalizing m with
  | nil => exact le_rfl
  | cons a l ih => exact le_trans (le_max_left m a) (ih _)

theorem fetchSpan_le_top (s : State) (l) : (s.pc+3).toNat ≤ s.top l := by
  unfold State.top
  generalize (s.pc+3).toNat = n
  induction l generalizing n with
  | nil => exact le_rfl
  | cons a l ih => exact le_trans (le_max_left n a) (ih _)

theorem le_top_of_mem (s : State) {l a} (h : a ∈ l) : a ≤ s.top l := by
  unfold State.top
  generalize (s.pc+3).toNat = n
  induction l generalizing n with
  | nil => cases h
  | cons b l ih =>
    rcases List.mem_cons.mp h with rfl | h
    · exact le_trans (le_max_right n a) (le_foldl_max _ _)
    · exact ih h _

/-! ### The committed state -/

theorem commit_cap (s : State) (i : Instr) : (commit s i).cap = growTo s.cap (s.top (addrs s i)) := by
  cases i <;> simp [commit, grown] <;> split <;> rfl

theorem commit_cfg (s : State) (i : Instr) : (commit s i).cfg = s.cfg := by
  cases i <;> simp [commit, grown] <;> split <;> rfl

theorem commit_run {s : State} {i : Instr} : (commit s i).run = if i = .hlt then .halted else s.run := by
  cases i <;> simp [commit, grown] <;> split <;> rfl

theorem commit_fault {s : State} {i : Instr} : (commit s i).fault = s.fault := by
  cases i <;> simp [commit, grown] <;> split <;> rfl

theorem commit_pc {s : State} {i : Instr} : (commit s i).pc = match (generalizing := false) i with
   | .hlt => s.pc | .jt c g => if s.val 0 c ≠ 0 then s.val 1 g else s.pc + 3 | .jf c g => if s.val 0 c = 0 then s.val
       1 g else s.pc + 3 | i => s.pc + i.length := by
  cases i <;> simp [commit, grown, Instr.length, Instr.op, Op.length] <;> split <;> rfl

/-- A completed step keeps the memory canonical and within CAP (R33, R39). -/
theorem commit_memOk {s : State} {i : Instr} (hc : 1 ≤ s.cap) (h : s.memOk = true) : (commit s i).memOk = true := by
  have hg : (grown s i).memOk = true := memOk_grow h _
  have hcap : s.top (addrs s i) < (grown s i).cap := lt_growTo hc _
  have hle : ∀ a ∈ addrs s i, a < (grown s i).cap := fun a ha => lt_of_le_of_lt (le_top_of_mem s ha) hcap
  cases i with
  | add a b d | mul a b d | lt a b d | eq a b d => exact memOk_write hg (hle (s.addr 2 d) (by simp [addrs]))
  | inp d => exact memOk_write (s := { grown s (.inp d) with inQ := s.inQ.tail }) hg (hle (s.addr 0 d) (by simp
      [addrs]))
  | jt c g | jf c g => simp only [commit]; split <;> exact hg
  | _ => exact hg

/-- A store after growth: the cell holds the value, every other address reads as before (R39). -/
theorem store_frame {s : State} {n x : Nat} {v : Word} (hm : s.memOk = true) (hc : 1 ≤ s.cap) (hx : x ≤ n) :
   ((s.grow n).write x v).read x = v ∧ KeepsMemoryBut x s ((s.grow n).write x v) := by
  have h1 := memOk_grow hm n
  simp only [State.memOk, Bool.and_eq_true] at h1
  have h2 := lt_growTo hc n
  refine ⟨write_read_self h1.1 (by rw [grow_cap]; omega), fun a ha => ?_⟩
  rw [write_read_of_ne ha, grow_read]

theorem boolWord_toInt (b : Bool) : (boolWord b).toInt = if b then 1 else 0 := by cases b <;> rfl

/-- A completed step that stores a value advances PC by the instruction's length and writes that value at the write
operand's address, in grown memory. -/
theorem commit_of_storedValue {s : State} {i : Instr} {j : Fin 3} {d : Operand} {v : Int}
    (hj : i.op.writeIndex = some j) (hd : i.writeOperand = some d) (hv : s.storedValue i = some v) :
    (commit s i).pc = s.pc + i.length ∧
      (commit s i).mem = ((s.grow (s.top (addrs s i))).write (s.addr j d) (BitVec.ofInt 64 v)).mem := by
  cases i <;> cases hj <;> cases hd
  case inp =>
    cases hq : s.inQ with
    | nil => simp [State.storedValue, hq] at hv
    | cons x q =>
      simp [State.storedValue, hq] at hv
      subst hv
      simp [commit, grown, hq, Instr.length, Instr.op, Op.length]
  case lt a b =>
    cases hv
    refine ⟨rfl, ?_⟩
    simp only [commit, grown, boolWord, advance_mem, write_mem, decide_eq_true_eq]
    split <;> rfl
  case eq a b =>
    cases hv
    refine ⟨rfl, ?_⟩
    simp only [commit, grown, boolWord, advance_mem, write_mem, decide_eq_true_eq]
    split <;> rfl
  all_goals (cases hv; exact ⟨rfl, rfl⟩)

/-! ### Growth and MAX_CAPACITY -/

theorem growTo_pow (c n : Nat) : ∃ k, growTo c n = c * 2 ^ k := by
  rcases Nat.eq_zero_or_pos c with rfl | hc
  · exact ⟨0, by simp⟩
  · obtain ⟨k, hk, _⟩ := growTo_spec hc n; exact ⟨k, hk⟩

theorem Reaches.cap {s : State} {n m} (hc : 1 ≤ s.cap) (h : Reaches s n) (hm : s.cfg.maxCapacity = some m) (hl :
    s.cap ≤ m) : growTo s.cap n ≤ m := by
  rcases h with rfl | h
  · rw [growTo_eq_self (by omega)]; exact hl
  · unfold State.fits at h; rw [hm] at h; simpa using h

theorem capOk_of_grown {s t : State} {n} (h : s.capOk = true) (hn : Reaches s n) (ht : t.cap = growTo s.cap n) (hcfg
    : t.cfg = s.cfg) : t.capOk = true := by
  simp only [State.capOk, Bool.and_eq_true, decide_eq_true_eq, hcfg, ht] at h ⊢
  refine ⟨le_trans h.1 (le_growTo _ _), ?_⟩
  cases hm : s.cfg.maxCapacity with
  | none => rfl
  | some m =>
    rw [hm] at h
    simp at h ⊢
    exact Reaches.cap h.1 hn hm h.2

/-! ### Faulting steps -/

/-- A step that faults is the entry of the first failing check, after growth that fits. -/
theorem step_faulted_inv {s t : State} (hr : s.run = .running) (h : step s = .next t) (hf : t.run = .faulted) :
   ∃ r n, firstFault s = some r ∧ Reaches s n ∧ t = faultState r (s.grow n) := by
  rcases step_cases hr with ⟨r, n, h1, h2, h3⟩ | ⟨i, hi, h0, h1, h2, h3, h4⟩
  · rw [h] at h3; cases h3; exact ⟨r, n, h1, h2, rfl⟩
  · rw [h1, h4] at h; cases h
    exfalso
    split at hf
    · rw [hr] at hf; cases hf
    · rw [commit_run] at hf; split at hf
      · cases hf
      · rw [hr] at hf; cases hf

end Sys2Proof.Machine
end

