-- ==== Sys2Proof/Laws/Agree.lean ====
section
/-! SUPPORT. Two states that agree in all but CAP, without a bound on it, have the same checks, operands and first
    fault, and
stay alike under growth, stores and fault entry (R21, R22). -/

namespace Sys2Proof.Machine

variable {s t : State}

theorem fits_of_unbounded (h : s.cfg.maxCapacity = none) (n) : s.fits n = true := by simp [State.fits, h]

theorem agree_instrWord (h : AgreeButCap s t) : s.instrWord = t.instrWord := by
  simp only [State.instrWord]; rw [h.1, h.2.1]

theorem agree_decodeAt (h : AgreeButCap s t) : s.decodeAt = t.decodeAt := by
  simp only [State.decodeAt, agree_instrWord h, h.1, h.2.1]

theorem agree_ea (h : AgreeButCap s t) (i o) : s.ea i o = t.ea i o := by
  simp only [State.ea, h.2.1, h.2.2.1]

theorem agree_addr (h : AgreeButCap s t) (i o) : s.addr i o = t.addr i o := by simp only [State.addr, agree_ea h]

theorem agree_operandValue (h : AgreeButCap s t) (o a) : s.operandValue o a = t.operandValue o a := by
  simp only [State.operandValue, h.1]

theorem agree_val (h : AgreeButCap s t) (i o) : s.val i o = t.val i o := by simp only [State.val, agree_operandValue
    h, agree_addr h]

theorem agree_recordAt (h : AgreeButCap s t) : recordAt s = recordAt t := by funext; simp only [recordAt, h.2.1]

theorem agree_fetchFaults (hs : s.cfg.maxCapacity = none) (ht : t.cfg.maxCapacity = none) (h : AgreeButCap s t) :
    fetchFaults s = fetchFaults t := by
  simp only [fetchFaults, agree_recordAt h, h.2.1, fits_of_unbounded hs, fits_of_unbounded ht]

theorem agree_operandFaults (hs : s.cfg.maxCapacity = none) (ht : t.cfg.maxCapacity = none) (h : AgreeButCap s t) (i
    o) : operandFaults s i o = operandFaults t i o := by
  simp only [operandFaults, agree_recordAt h, agree_ea h, agree_addr h, agree_instrWord h, fits_of_unbounded hs,
      fits_of_unbounded ht]

theorem agree_overflowFault (h : AgreeButCap s t) (v) : overflowFault s v = overflowFault t v := by
  simp only [overflowFault, agree_recordAt h, agree_instrWord h]

theorem agree_writeFault (h : AgreeButCap s t) (i o) : writeFault s i o = writeFault t i o := by
  simp only [writeFault, agree_recordAt h, agree_instrWord h]

theorem agree_checks (hs : s.cfg.maxCapacity = none) (ht : t.cfg.maxCapacity = none) (h : AgreeButCap s t) (i) :
    checks s i = checks t i := by
  cases i <;> simp only [checks, writeFaults, executeFaults, agree_fetchFaults hs ht h, agree_operandFaults hs ht h,
      agree_overflowFault h, agree_writeFault h, agree_val h, h.2.2.1]

theorem agree_executeFaults (hs : s.cfg.maxCapacity = none) (ht : t.cfg.maxCapacity = none) (h : AgreeButCap s t) (i)
    : executeFaults s i = executeFaults t i := by
  cases i <;> simp only [executeFaults, agree_operandFaults hs ht h, agree_overflowFault h, agree_val h, h.2.2.1]

theorem agree_firstFault (hs : s.cfg.maxCapacity = none) (ht : t.cfg.maxCapacity = none) (h : AgreeButCap s t) :
    firstFault s = firstFault t := by
  simp only [firstFault, agree_fetchFaults hs ht h, decodeFault, agree_decodeAt h, agree_recordAt h, agree_instrWord
      h, agree_executeFaults hs ht h]

theorem agree_grow (h : AgreeButCap s t) (n m) : AgreeButCap (s.grow n) (t.grow m) := by
  obtain ⟨h0, h1⟩ := h
  exact ⟨fun a => by rw [grow_read, grow_read, h0], h1⟩

theorem agree_faultState (h : AgreeButCap s t) (r) : AgreeButCap (faultState r s) (faultState r t) := by
  obtain ⟨h0, h1, h2, h3, h4, h5⟩ := h
  exact ⟨h0, h1, h2, rfl, rfl, h5⟩

theorem agree_write (h : AgreeButCap s t) (hs : s.memOk = true) (ht : t.memOk = true) {x} (hx : x < s.cap) (hy : x <
    t.cap) (v) : AgreeButCap (s.write x v) (t.write x v) := by
  obtain ⟨h0, h1⟩ := h
  simp only [State.memOk, Bool.and_eq_true] at hs ht
  refine ⟨fun a => ?_, h1⟩
  by_cases ha : a = x
  · subst ha; rw [write_read_self hs.1 hx, write_read_self ht.1 hy]
  · rw [write_read_of_ne ha, write_read_of_ne ha, h0]

theorem agree_grown (h : AgreeButCap s t) (i) : AgreeButCap (grown s i) (grown t i) := agree_grow h _ _

theorem agree_advance (h : AgreeButCap s t) (n) : AgreeButCap (advance n s) (advance n t) := by
  obtain ⟨h0, h1, h2⟩ := h
  exact ⟨h0, by simp only [advance, h1], h2⟩

theorem agree_store (h : AgreeButCap s t) (hs : s.memOk = true) (ht : t.memOk = true) (hc : 1 ≤ s.cap) (hd : 1 ≤
    t.cap) (i) {x} (hx : x ∈ addrs s i) (hy : x ∈ addrs t i) (v) :
  AgreeButCap ((grown s i).write x v) ((grown t i).write x v) :=
  agree_write (agree_grown h i) (memOk_grow hs _) (memOk_grow ht _)
    (Nat.lt_of_le_of_lt (le_top_of_mem s hx) (lt_growTo hc _)) (Nat.lt_of_le_of_lt (le_top_of_mem t hy) (lt_growTo hd
        _)) v

end Sys2Proof.Machine
end

