-- ==== Sys2Proof/Laws/Channel.lean ====
section
/-! SUPPORT. The channels: the shapes of the output channel (R112), what a step appends to it, and that the environment
changes neither RUN nor FAULT (R27). -/

namespace Sys2Proof.Machine

theorem onlyData_iff {q : List Message} : onlyData q = true ↔ ∃ vs : List Word, q = vs.map .data := by
  induction q with
  | nil => simp [onlyData]
  | cons m q ih =>
    cases m with
    | data v => 
      rw [onlyData, ih]
      constructor
      · rintro ⟨vs, rfl⟩; exact ⟨v :: vs, rfl⟩
      · rintro ⟨vs, h⟩; cases vs with
        | nil => cases h
        | cons w vs => simp at h; exact ⟨vs, h.2⟩
    | exit =>
      simp [onlyData]
      intro vs; cases vs <;> simp

theorem endsInExit_iff {q : List Message} : endsInExit q = true ↔ ∃ vs : List Word, q = vs.map .data ++ [.exit] := by
  induction q with
  | nil => simp [endsInExit]
  | cons m q ih =>
    cases m with
    | data v => 
      rw [endsInExit, ih]
      constructor
      · rintro ⟨vs, rfl⟩; exact ⟨v :: vs, rfl⟩
      · rintro ⟨vs, h⟩; cases vs with
        | nil => simp at h
        | cons w vs => simp at h; exact ⟨vs, h.2⟩
    | exit =>
      simp only [endsInExit, decide_eq_true_eq]
      constructor
      · rintro rfl; exact ⟨[], rfl⟩
      · rintro ⟨vs, h⟩; cases vs with
        | nil => simpa using h
        | cons w vs => simp at h

theorem onlyData_append {q : List Message} {v} (h : onlyData q = true) : onlyData (q ++ [.data v]) = true := by
  obtain ⟨vs, rfl⟩ := onlyData_iff.mp h
  exact onlyData_iff.mpr ⟨vs ++ [v], by simp⟩

theorem endsInExit_append {q : List Message} (h : onlyData q = true) : endsInExit (q ++ [.exit]) = true := by
  obtain ⟨vs, rfl⟩ := onlyData_iff.mp h
  exact endsInExit_iff.mpr ⟨vs, by simp⟩

/-! ### What the host's and the environment's moves do -/

/-- A send changes nothing, or queues its value. -/
theorem hostSend_cases (v : Word) (s : State) : (hostSend v s).2 = s ∨ (hostSend v s).2 = queueInput v s := by
  unfold hostSend
  split
  · exact .inr rfl
  · exact .inl rfl
  · by_cases h : destroyed s = true
    · exact .inl (if_pos h)
    · exact .inr (if_neg h)

theorem hostSend_of_running {s : State} (h : s.run = .running) (v : Word) :
    hostSend v s = (.delivered, queueInput v s) := by simp only [hostSend, h, queueInput]

theorem hostSend_of_halted {s : State} (h : s.run = .halted) (v : Word) : hostSend v s = (.failed, s) := by
  simp only [hostSend, h]

theorem hostSend_of_faulted {s : State} (h : s.run = .faulted) (v : Word) :
    hostSend v s = (.delivered, if destroyed s = true then s else queueInput v s) := by
  simp only [hostSend, h, queueInput]

/-- When a worker is destroyed (R126). -/
theorem destroyed_iff {s : State} : destroyed s = true ↔ s.run ≠ .running ∧ s.inQ = [] ∧ s.outQ = [] := by
  simp [destroyed, and_assoc]

/-- A receive leaves the state, or takes the oldest message, Exit setting the flag. -/
theorem hostRecv_cases (s : State) : (s.outQ = [] ∧ (hostRecv s).2 = s) ∨
    (∃ v q, s.outQ = .data v :: q ∧ (hostRecv s).2 = { s with outQ := q }) ∨
    (∃ q, s.outQ = .exit :: q ∧ (hostRecv s).2 = { s with outQ := q, exited := true }) := by
  unfold hostRecv
  split
  · next h => exact .inl ⟨h, rfl⟩
  · next v q h => exact .inr (.inl ⟨v, q, h, rfl⟩)
  · next q h => exact .inr (.inr ⟨q, h, rfl⟩)

theorem applyEvent_run (e : EnvEvent) (s : State) : (applyEvent e s).run = s.run := by
  cases e with
  | send v => rcases hostSend_cases v s with h | h <;> simp only [applyEvent, h, queueInput]
  | recv => rcases hostRecv_cases s with ⟨_, h⟩ | ⟨_, _, _, h⟩ | ⟨_, _, h⟩ <;> simp only [applyEvent, h]
  | accept b => rfl

theorem applyEvent_fault (e : EnvEvent) (s : State) : (applyEvent e s).fault = s.fault := by
  cases e with
  | send v => rcases hostSend_cases v s with h | h <;> simp only [applyEvent, h, queueInput]
  | recv => rcases hostRecv_cases s with ⟨_, h⟩ | ⟨_, _, _, h⟩ | ⟨_, _, h⟩ <;> simp only [applyEvent, h]
  | accept b => rfl

/-- What a step does to the output channel, with RUN. -/
theorem step_outQ_cases {s t : State} (h : step s = .next t) : (t.outQ = s.outQ ∧ (t.run = .halted ↔ s.run =
    .halted)) ∨ (∃ v, t.outQ = s.outQ ++ [.data v] ∧ s.run = .running ∧ t.run ≠ .halted) ∨ (s.run = .running ∧ t.run
    = .halted ∧ t.outQ = s.outQ ++ [.exit]) := by
  by_cases hr : s.run = .running
  · rcases step_cases hr with ⟨r, n, h1, h2, h3⟩ | ⟨i, hi, h0, h1, h2, h3, h4⟩
    · rw [h] at h3; cases h3; left; simp [hr]
    · rw [h1, h4] at h; cases h
      split
      · exact .inl ⟨rfl, Iff.rfl⟩
      · cases i with
        | out a => exact .inr (.inl ⟨_, rfl, hr, by rw [commit_run]; simp [hr]⟩)
        | hlt => exact .inr (.inr ⟨hr, rfl, rfl⟩)
        | jt c g => left; rw [commit_run]; simp only [commit]; split <;> simp [grown]
        | jf c g => left; rw [commit_run]; simp only [commit]; split <;> simp [grown]
        | _ => left; simp [commit, grown]
  · rw [step_terminal hr] at h; cases h; exact .inl ⟨rfl, Iff.rfl⟩

end Sys2Proof.Machine
end

