-- ==== Sys2Proof/Laws/Encode.lean ====
section
/-! SUPPORT. The canonical word of R64: its range, its digits, and what decode makes of any word that agrees with it
    in its
five low digits (R53). -/

namespace Sys2Proof

theorem canonical_range (i : Instr) : 1 ≤ i.canonical ∧ i.canonical ≤ 22299 := by
  have h : ∀ k, i.modeDigit k ≤ 2 := by
    intro k; unfold Instr.modeDigit
    split
    · next o _ => cases o.mode <;> simp [Mode.digit]
    · omega
  have := h 0; have := h 1; have := h 2
  unfold Instr.canonical
  cases i <;> simp [Instr.op, Op.code] <;> omega

theorem toInt_ofNat_of_le {n : Nat} (h : n ≤ 22299) : (BitVec.ofNat 64 n : Word).toInt = n := by
  rw [BitVec.toInt_eq_toNat_of_lt] <;> rw [BitVec.toNat_ofNat] <;> omega

theorem digit_canonical (i : Instr) : i.canonical % 100 = i.op.code ∧ digit 2 i.canonical = i.modeDigit 0 ∧ digit 3
    i.canonical = i.modeDigit 1 ∧ digit 4 i.canonical = i.modeDigit 2 := by
  have h : ∀ k, i.modeDigit k ≤ 2 := by
    intro k; unfold Instr.modeDigit
    split
    · next o _ => cases o.mode <;> simp [Mode.digit]
    · omega
  have := h 0; have := h 1; have := h 2
  have hc : 1 ≤ i.op.code ∧ i.op.code < 100 := by cases i <;> simp [Instr.op, Op.code]
  unfold Instr.canonical digit
  norm_num
  omega

/-- The mode of parameter `k`, position for a parameter the instruction does not have. -/
def Instr.modeAt (i : Instr) (k : Nat) : Mode := match i.operands[k]? with | some o => o.mode | none => .position

theorem modeDigit_eq (i : Instr) (k : Nat) : i.modeDigit k = (Instr.modeAt i k).digit := by
  unfold Instr.modeDigit Instr.modeAt; split <;> simp_all [Mode.digit]

/-- Decode of a word whose five low digits are those of the canonical word. -/
theorem decodeHeader_of_mod {i : Instr} {w : Word} (hi : i.wellFormed = true) (hw : 0 ≤ w.toInt)
    (hm : w.toInt.toNat % 100000 = i.canonical % 100000) :
    decodeHeader w = .ok ⟨i.op, Instr.modeAt i 0, Instr.modeAt i 1, Instr.modeAt i 2⟩ := by
  have hd := digit_canonical i
  have e : w.toInt.toNat % 100 = i.op.code := by rw [← hd.1]; omega
  have e2 : digit 2 w.toInt.toNat = (Instr.modeAt i 0).digit := by
    rw [← modeDigit_eq, ← hd.2.1]
    unfold digit
    norm_num
    omega
  have e3 : digit 3 w.toInt.toNat = (Instr.modeAt i 1).digit := by
    rw [← modeDigit_eq, ← hd.2.2.1]
    unfold digit
    norm_num
    omega
  have e4 : digit 4 w.toInt.toNat = (Instr.modeAt i 2).digit := by
    rw [← modeDigit_eq, ← hd.2.2.2]
    unfold digit
    norm_num
    omega
  rw [decodeHeader_of_fields hw e e2 e3 e4]
  cases i <;> simp [Instr.wellFormed, Instr.writeOperand] at hi <;> simp [checkWriteMode, Instr.op, Op.writeIndex,
      Header.mode, Instr.modeAt, Instr.operands]
  all_goals (intro h; rw [h] at hi; simp [Mode.writable] at hi)

theorem Mode.exists_of_digit {d : Nat} : d ∈ [0,1,2] → ∃ m : Mode, d = m.digit := by
  intro h; simp at h; rcases h with rfl|rfl|rfl
  exacts [⟨.position, rfl⟩, ⟨.immediate, rfl⟩, ⟨.relative, rfl⟩]

theorem Mode.digit_mem (m : Mode) : m.digit ∈ [0,1,2] := by cases m <;> simp [Mode.digit]

theorem Op.exists_of_code {n : Nat} (h : n ∈ [1, 2, 3, 4, 5, 6, 7, 8, 9, 99]) : ∃ o : Op, n = o.code := by
  by_contra hc
  cases ho : Op.ofCode n with
  | none => exact (Op.ofCode_eq_none.mp ho) h
  | some o => exact hc ⟨o, (Op.ofCode_eq_some ho).symm⟩

theorem Op.code_mem (o : Op) : o.code ∈ [1, 2, 3, 4, 5, 6, 7, 8, 9, 99] := by cases o <;> simp [Op.code]

theorem decodeMode_of_bad {i : Fin 3} {w : Nat} (h : digit (i.val + 2) w ∉ [0, 1, 2]) : decodeMode i w = .error
    (.illegalMode i (digit (i.val + 2) w)) := by
  unfold decodeMode; rw [Mode.ofDigit_eq_none.mpr h]

theorem decodeMode_of_good {i : Fin 3} {w : Nat} (h : digit (i.val + 2) w ∈ [0, 1, 2]) : ∃ m, decodeMode i w = .ok m
    := by
  obtain ⟨m, hm⟩ := Mode.exists_of_digit h
  refine ⟨m, ?_⟩
  unfold decodeMode; rw [hm, Mode.ofDigit_digit]

end Sys2Proof
end

