-- ==== Sys2Proof/Laws/Load.lean ====
section
/-! SUPPORT. The pieces of the text format of R123: splitting at commas, trimming white space, reading digits. -/

namespace Sys2Proof.Machine

theorem splitCommas_ne_nil (t : List Char) : splitCommas t ≠ [] := by
  cases t with
  | nil => simp [splitCommas]
  | cons c t =>
    rw [splitCommas]; split
    · simp
    · split <;> simp

theorem splitCommas_append (t u : List Char) : splitCommas (t ++ ',' :: u) = splitCommas t ++ splitCommas u := by
  induction t with
  | nil => simp [splitCommas]
  | cons c t ih =>
    simp only [List.cons_append, splitCommas]
    split
    · simp [ih]
    · rw [ih]
      cases h : splitCommas t with
      | nil => exact absurd h (splitCommas_ne_nil t)
      | cons p ps => rfl

theorem parsePieces_append (l m : List (List Char)) : parsePieces (l ++ m) = (parsePieces l).bind fun vs =>
    (parsePieces m).map fun ws => vs ++ ws := by
  induction l with
  | nil => simp [parsePieces]
  | cons p l ih =>
    simp only [List.cons_append, parsePieces, ih]
    cases parseItem (trim p) with
    | none => rfl
    | some w =>
      cases parsePieces l with
      | none => rfl
      | some vs => cases parsePieces m <;> rfl

theorem splitCommas_of_no_comma (t : List Char) (h : ∀ c ∈ t, c ≠ ',') : splitCommas t = [t] := by
  induction t with
  | nil => rfl
  | cons c t ih =>
    rw [splitCommas, if_neg (h c (by simp)), ih (fun c hc => h c (by simp [hc]))]

theorem dropWhile_all {p : Char → Bool} {t : List Char} (h : ∀ c ∈ t, p c = true) (u : List Char) : (t ++
    u).dropWhile p = u.dropWhile p := by
  induction t with
  | nil => rfl
  | cons c t ih => rw [List.cons_append, List.dropWhile_cons, if_pos (h c (by simp)), ih (fun c hc => h c (by simp
      [hc]))]

theorem dropWhile_head {p : Char → Bool} {c : Char} {t : List Char} (h : p c = false) : (c :: t).dropWhile p = c :: t
    := by simp [h]

theorem isDigit_iff {c : Char} : c.isDigit = true ↔ 48 ≤ c.toNat ∧ c.toNat ≤ 57 := by
  unfold Char.isDigit
  simp only [Bool.and_eq_true, decide_eq_true_eq, ge_iff_le, UInt32.le_iff_toNat_le]
  exact Iff.rfl

theorem digit_not_space {c : Char} (h : c.isDigit = true) : isSpace c = false := by
  rw [isDigit_iff] at h
  unfold isSpace
  simp only [Bool.or_eq_false_iff, beq_eq_false_iff_ne]
  refine ⟨⟨⟨?_, ?_⟩, ?_⟩, ?_⟩ <;> (rintro rfl; revert h; decide)

theorem trim_item {pre post it : List Char} (hpre : ∀ c ∈ pre, isSpace c = true) (hpost : ∀ c ∈ post, isSpace c = true)
   (hne : it ≠ []) (h : ∀ c ∈ it, isSpace c = false) : trim (pre ++ it ++ post) = it := by
  unfold trim
  rw [List.append_assoc, dropWhile_all hpre]
  obtain ⟨c, t, rfl⟩ := List.exists_cons_of_ne_nil hne
  rw [List.cons_append, dropWhile_head (h c (by simp)), ← List.cons_append, List.reverse_append, dropWhile_all (by
      simpa using hpost)]
  obtain ⟨t', d, e⟩ : ∃ t' d, c :: t = t' ++ [d] := ⟨_, _, (List.dropLast_append_getLast (by simp)).symm⟩
  rw [e] at h ⊢
  rw [List.reverse_append, List.reverse_singleton, List.singleton_append, dropWhile_head (h d (by simp))]
  simp

theorem digitsFrom_eq (acc : Nat) (ds : List Char) (h : ∀ c ∈ ds, c.isDigit = true) :
   digitsFrom acc ds = some (ds.foldl (fun m c => 10 * m + (c.toNat - 48)) acc) := by
  induction ds generalizing acc with
  | nil => rfl
  | cons c ds ih =>
    have hc := isDigit_iff.mp (h c (by simp))
    simp only [digitsFrom, digitValue?, if_pos hc, List.foldl_cons]
    exact ih _ (fun c hc => h c (by simp [hc]))

theorem foldl_digits_cast (acc : Nat) (ds : List Char) (h : ∀ c ∈ ds, c.isDigit = true) :
   ((ds.foldl (fun m c => 10 * m + (c.toNat - 48)) acc : Nat) : Int) = ds.foldl (fun m c => 10 * m + ((c.toNat : Int)
       - 48)) (acc : Int) := by
  induction ds generalizing acc with
  | nil => rfl
  | cons c ds ih =>
    have hc := isDigit_iff.mp (h c (by simp))
    simp only [List.foldl_cons]
    rw [ih _ (fun c hc => h c (by simp [hc]))]
    congr 1
    push_cast [Nat.cast_sub hc.1]; rfl

theorem mem_dropWhile {p : Char → Bool} {t : List Char} {c : Char} (h : c ∈ t) (hp : p c = false) : c ∈ t.dropWhile p
    := by
  induction t with
  | nil => cases h
  | cons d t ih =>
    simp only [List.dropWhile_cons]
    split
    · next hd => rcases List.mem_cons.mp h with rfl | h
                 · rw [hp] at hd; cases hd
                 · exact ih h
    · exact h

theorem mem_trim {t : List Char} {c : Char} (h : c ∈ t) (hp : isSpace c = false) : c ∈ trim t := by
  unfold trim
  rw [List.mem_reverse]
  exact mem_dropWhile (List.mem_reverse.mpr (mem_dropWhile h hp)) hp

theorem digitsFrom_none {t : List Char} {c : Char} (h : c ∈ t) (hd : c.isDigit = false) (acc) : digitsFrom acc t =
    none := by
  have hn : digitValue? c = none := by
    unfold digitValue?; rw [if_neg]; rw [← isDigit_iff]; simp [hd]
  induction t generalizing acc with
  | nil => cases h
  | cons d t ih =>
    rw [digitsFrom]
    rcases List.mem_cons.mp h with rfl | h
    · rw [hn]
    · split
      · rfl
      · exact ih h _

theorem parseItem_none {t : List Char} {c : Char} (h : c ∈ t) (hd : c.isDigit = false) (hm : c ≠ '-') : parseItem t =
    none := by
  cases t with
  | nil => rfl
  | cons d t =>
    rw [parseItem]
    split
    · next hdm =>
      subst hdm
      have : c ∈ t := by simpa [hm] using h
      have : parseDigits t = none := by unfold parseDigits; split; rfl; exact digitsFrom_none this hd 0
      rw [this]
    · have : parseDigits (d :: t) = none := by unfold parseDigits; split; rfl; exact digitsFrom_none h hd 0
      rw [this]

theorem mem_splitCommas {t : List Char} {c : Char} (h : c ∈ t) (hc : c ≠ ',') : ∃ p ∈ splitCommas t, c ∈ p := by
  induction t with
  | nil => cases h
  | cons d t ih =>
    rw [splitCommas]
    rcases List.mem_cons.mp h with rfl | h
    · rw [if_neg hc]; split
      · exact ⟨[c], by simp, by simp⟩
      · next p ps _ => exact ⟨c :: p, by simp, by simp⟩
    · obtain ⟨p, hp, hcp⟩ := ih h
      split
      · exact ⟨p, by simp [hp], hcp⟩
      · split
        · next e => rw [e] at hp; cases hp
        · next q qs e =>
          rw [e] at hp
          rcases List.mem_cons.mp hp with rfl | hp
          · exact ⟨d :: p, by simp, by simp [hcp]⟩
          · exact ⟨p, by simp [hp], hcp⟩

theorem parsePieces_none {l : List (List Char)} {p} (h : p ∈ l) (hp : parseItem (trim p) = none) : parsePieces l =
    none := by
  induction l with
  | nil => cases h
  | cons q l ih =>
    rw [parsePieces]
    rcases List.mem_cons.mp h with rfl | h
    · rw [hp]
    · rw [ih h]; split <;> rfl

/-- `trim` takes white space from both ends and nothing else. -/
theorem trim_split (t : List Char) : ∃ pre post : List Char,
    (∀ c ∈ pre, isSpace c = true) ∧ (∀ c ∈ post, isSpace c = true) ∧ t = pre ++ trim t ++ post := by
  refine ⟨t.takeWhile isSpace, ((t.dropWhile isSpace).reverse.takeWhile isSpace).reverse,
    fun c h => List.mem_takeWhile_imp h, fun c h => List.mem_takeWhile_imp (List.mem_reverse.mp h), ?_⟩
  unfold trim
  rw [List.append_assoc, ← List.reverse_append, List.takeWhile_append_dropWhile, List.reverse_reverse,
    List.takeWhile_append_dropWhile]

/-- What `digitsFrom` accepts is digits only. -/
theorem digits_of_digitsFrom {t : List Char} {acc n : Nat} (h : digitsFrom acc t = some n) :
    ∀ c ∈ t, c.isDigit = true := by
  intro c hc
  cases hd : c.isDigit with
  | true => rfl
  | false => rw [digitsFrom_none hc hd acc] at h; exact (Option.some_ne_none n h.symm).elim

/-- What `parseItem` accepts is an optional '-' and one or more digits. -/
theorem shape_of_parseItem {t : List Char} {w : Word} (h : parseItem t = some w) : ∃ (neg : Bool) (ds : List Char),
    ds ≠ [] ∧ (∀ c ∈ ds, c.isDigit = true) ∧ t = (if neg then ['-'] else []) ++ ds := by
  have key : ∀ {u : List Char} {n : Nat}, parseDigits u = some n → u ≠ [] ∧ ∀ c ∈ u, c.isDigit = true := by
    intro u n hu
    unfold parseDigits at hu
    split at hu
    · exact (Option.some_ne_none n hu.symm).elim
    · next hne => exact ⟨hne, digits_of_digitsFrom hu⟩
  cases t with
  | nil => exact (Option.some_ne_none w h.symm).elim
  | cons c t =>
    rw [parseItem] at h
    split at h
    · next hc =>
      subst hc
      cases hp : parseDigits t with
      | none => rw [hp] at h; exact (Option.some_ne_none w h.symm).elim
      | some n => exact ⟨true, t, (key hp).1, (key hp).2, rfl⟩
    · cases hp : parseDigits (c :: t) with
      | none => rw [hp] at h; exact (Option.some_ne_none w h.symm).elim
      | some n => exact ⟨false, c :: t, (key hp).1, (key hp).2, rfl⟩

end Sys2Proof.Machine
end

