-- ==== Sys2Proof/Laws/PerInstr.lean ====
section
/-! SUPPORT. A statement per instruction, about its syntax: the write operand that WellFormed checks is the operand at the
WRITE_INDEX that the decoder checks (R60, R61), and each parameter has one slot of the instruction's length (R52, R63). -/

namespace Sys2Proof.Laws

/-- The operand that WellFormed takes for the write operand is the one at WRITE_INDEX[op], and LEN[op] is one word more than
the parameters. -/
def Slots.Statement (i : Instr) : Prop :=
  i.writeOperand = (i.op.writeIndex.bind fun j => i.operands[j.val]?) ∧ i.length = i.operands.length + 1

theorem Slots.add (a b d : Operand) : Slots.Statement (.add a b d) := ⟨rfl, rfl⟩
theorem Slots.mul (a b d : Operand) : Slots.Statement (.mul a b d) := ⟨rfl, rfl⟩
theorem Slots.inp (d : Operand) : Slots.Statement (.inp d) := ⟨rfl, rfl⟩
theorem Slots.out (a : Operand) : Slots.Statement (.out a) := ⟨rfl, rfl⟩
theorem Slots.jt (c t : Operand) : Slots.Statement (.jt c t) := ⟨rfl, rfl⟩
theorem Slots.jf (c t : Operand) : Slots.Statement (.jf c t) := ⟨rfl, rfl⟩
theorem Slots.lt (a b d : Operand) : Slots.Statement (.lt a b d) := ⟨rfl, rfl⟩
theorem Slots.eq (a b d : Operand) : Slots.Statement (.eq a b d) := ⟨rfl, rfl⟩
theorem Slots.arb (a : Operand) : Slots.Statement (.arb a) := ⟨rfl, rfl⟩
theorem Slots.hlt : Slots.Statement .hlt := ⟨rfl, rfl⟩

end Sys2Proof.Laws
end

