-- ==== Sys2Proof/Laws/Queue.lean ====
section
/-! SUPPORT. One more value at the end of the input channel changes nothing that a check, a phase or an operand
    reads. -/

namespace Sys2Proof.Machine

theorem queueInput_grow (v : Word) (s : State) (n) : (queueInput v s).grow n = queueInput v (s.grow n) := rfl

theorem queueInput_checks (v : Word) (s : State) (i : Instr) : checks (queueInput v s) i = checks s i := by
  cases i <;> rfl

theorem queueInput_firstFault (v : Word) (s : State) : firstFault (queueInput v s) = firstFault s := rfl

theorem queueInput_needsOutput (v : Word) (s : State) (i) (h : firstOf (checks s i) = none) : needsOutput i
    (queueInput v s) = needsOutput i s := by
  cases i with
  | out a => rw [needsOutput_out h, needsOutput_out (by rw [queueInput_checks]; exact h)]; rfl
  | _ => rfl

theorem queueInput_commit (v : Word) (s : State) (i) (h : needsInput i s = false) (hk : firstOf (checks s i) = none)
    : commit (queueInput v s) i = queueInput v (commit s i) := by
  cases i with
  | inp d =>
    rw [needsInput_inp hk] at h
    cases hq : s.inQ with
    | nil => simp [hq] at h
    | cons x q => simp [commit, queueInput, hq, grown, State.grow, State.write, advance, addrs, State.top,
        State.addr, State.ea]
  | jt c g =>
    have h1 : (queueInput v s).val 0 c = s.val 0 c := rfl
    simp only [commit, h1]; split <;> rfl
  | jf c g =>
    have h1 : (queueInput v s).val 0 c = s.val 0 c := rfl
    simp only [commit, h1]; split <;> rfl
  | _ => rfl

theorem queueInput_needsInput (v : Word) (s : State) (i) (h : needsInput i s = false) (hk : firstOf (checks s i) =
    none) : needsInput i (queueInput v s) = false := by
  cases i with
  | inp d => rw [needsInput_inp (by rw [queueInput_checks]; exact hk)]; simp [queueInput]
  | _ => rfl

/-- A phase's end with one more input value queued. -/
def Phase.queue {α : Type} (v : Word) : Phase α → Phase α
 | .ok u t => .ok u (queueInput v t) | .stopped t => .stopped (queueInput v t)

theorem queueInput_checkReach_match (v) (w p a n) (s : State) : checkReach w p a n (queueInput v s) = match
    checkReach w p a n s with | .ok u t => .ok u (queueInput v t) | .stopped t => .stopped (queueInput v t) := by
  have h1 : ensureCapacity n.toNat (queueInput v s) = (ensureCapacity n.toNat s).map (queueInput v) := by
    unfold ensureCapacity
    rw [show (queueInput v s).fits n.toNat = s.fits n.toNat from rfl]
    split <;> rfl
  unfold checkReach
  rw [h1]
  split
  · rfl
  · cases ensureCapacity n.toNat s <;> rfl

theorem Phase.queue_bind {α β} (v : Word) (p : Phase α) (k : α → State → Phase β) (hk : ∀ a t, k a (queueInput v t) =
    Phase.queue v (k a t)) : (Phase.queue v p).bind k = Phase.queue v (p.bind k) := by
  cases p with
  | ok a t => exact hk a t
  | stopped t => rfl

theorem queueInput_checkReach (v) (w p a n) (s : State) : checkReach w p a n (queueInput v s) = Phase.queue v
    (checkReach w p a n s) := by
  rw [queueInput_checkReach_match]; cases checkReach w p a n s <;> rfl

theorem queueInput_resolve (v i o s) : resolve i o (queueInput v s) = Phase.queue v (resolve i o s) := by
  unfold resolve
  rw [show (queueInput v s).ea i o = s.ea i o from rfl, show (queueInput v s).instrWord = s.instrWord from rfl,
      queueInput_checkReach]
  exact Phase.queue_bind _ _ _ fun _ _ => rfl

theorem queueInput_checkWrite (v i o s) : checkWrite i o (queueInput v s) = Phase.queue v (checkWrite i o s) := by
  unfold checkWrite; split <;> rfl

theorem queueInput_checkFetch (v s) : checkFetch (queueInput v s) = Phase.queue v (checkFetch s) :=
    queueInput_checkReach _ _ _ _ _ _

theorem queueInput_phasesRRW (v a b d s) : phasesRRW a b d (queueInput v s) = Phase.queue v (phasesRRW a b d s) := by
  unfold phasesRRW
  rw [queueInput_checkFetch]
  refine Phase.queue_bind _ _ _ fun _ t => ?_
  rw [queueInput_checkWrite]
  refine Phase.queue_bind _ _ _ fun _ t => ?_
  rw [queueInput_resolve]
  refine Phase.queue_bind _ _ _ fun _ t => ?_
  rw [queueInput_resolve]
  refine Phase.queue_bind _ _ _ fun _ t => ?_
  rw [queueInput_resolve]
  exact Phase.queue_bind _ _ _ fun _ t => rfl

theorem queueInput_phasesRR (v a b s) : phasesRR a b (queueInput v s) = Phase.queue v (phasesRR a b s) := by
  unfold phasesRR
  rw [queueInput_checkFetch]
  refine Phase.queue_bind _ _ _ fun _ t => ?_
  rw [queueInput_resolve]
  refine Phase.queue_bind _ _ _ fun _ t => ?_
  rw [queueInput_resolve]
  exact Phase.queue_bind _ _ _ fun _ t => rfl

theorem queueInput_phasesR (v a s) : phasesR a (queueInput v s) = Phase.queue v (phasesR a s) := by
  unfold phasesR
  rw [queueInput_checkFetch]
  exact Phase.queue_bind _ _ _ fun _ t => queueInput_resolve _ _ _ _

theorem queueInput_phasesW (v a s) : phasesW a (queueInput v s) = Phase.queue v (phasesW a s) := by
  unfold phasesW
  rw [queueInput_checkFetch]
  refine Phase.queue_bind _ _ _ fun _ t => ?_
  rw [queueInput_checkWrite]
  exact Phase.queue_bind _ _ _ fun _ t => queueInput_resolve _ _ _ _

theorem queueInput_fetch (v s) : fetch (queueInput v s) = Phase.queue v (fetch s) := by
  unfold fetch
  rw [queueInput_checkFetch]
  refine Phase.queue_bind _ _ _ fun _ t => ?_
  rw [show (queueInput v t).decodeAt = t.decodeAt from rfl]
  cases t.decodeAt with
  | ok i => rfl
  | error e => cases e <;> rfl

end Sys2Proof.Machine
end

