-- ==== Sys2Proof/Tests/Slice0.lean ====
section
/-! SUPPORT. The model's own tests. Expected values come from spec/95_test_vectors.md (V-ids in the comments) or are
written out from the spec's encoding; and for each obligation with hypotheses, a state and operands that meet them. -/

open Sys2Proof Sys2Proof.Machine

namespace Sys2Proof.Tests

/-! ### Helpers -/

/-- An instance loaded with the integers `ws`, with the input values `q` waiting. -/
def start (ws : List Int) (q : List Int) : State :=
  { State.reset with
    mem := Memory.ofWords 0 (ws.map (BitVec.ofInt 64))
    cap := ws.length
    inQ := q.map (BitVec.ofInt 64) }

/-- The same with a finite MAX_CAPACITY. -/
def startIn (m : Nat) (ws : List Int) (q : List Int) : State := { start ws q with cfg := { maxCapacity := some m } }

/-- The outcome is a next state with the property `p`. -/
def answers (p : State → Bool) : Host.Outcome State Fault Refusal → Bool
  | .next t => p t
  | .fault _ => false
  | .refused _ => false

/-- Address `a` reads as the integer `v`. -/
def reads (t : State) (a : Nat) (v : Int) : Bool := decide ((t.read a).toInt = v)

/-- The step faults with the record. -/
def faultsWith (r : FaultRecord) (o : Host.Outcome State Fault Refusal) : Bool :=
  answers (fun t => decide (t.run = .faulted ∧ t.fault = r)) o

/-- A position, immediate or relative operand. -/
def pos (v : Int) : Operand := ⟨.position, BitVec.ofInt 64 v⟩
def immed (v : Int) : Operand := ⟨.immediate, BitVec.ofInt 64 v⟩
def rel (v : Int) : Operand := ⟨.relative, BitVec.ofInt 64 v⟩

/-! ### WellFormed: an ill-formed term for each check (R61) -/

theorem test_wf_add : (Instr.add (pos 0) (pos 0) (immed 0)).wellFormed = false := by decide
theorem test_wf_mul : (Instr.mul (pos 0) (pos 0) (immed 0)).wellFormed = false := by decide
theorem test_wf_in : (Instr.inp (immed 1)).wellFormed = false := by decide
theorem test_wf_lt : (Instr.lt (pos 0) (pos 0) (immed 0)).wellFormed = false := by decide
theorem test_wf_eq : (Instr.eq (pos 0) (pos 0) (immed 0)).wellFormed = false := by decide
theorem test_wf_accepts : (Instr.add (immed 0) (rel 0) (rel 0)).wellFormed = true := by decide

/-! ### Decoding: words written out digit by digit, C B A op (R53, R56, R58; 95_test_vectors.md section 2.2) -/

theorem test_decode_add : decode 101 7 8 9 = .ok (.add (immed 7) (pos 8) (pos 9)) := rfl
theorem test_decode_mul : decode 1002 7 8 9 = .ok (.mul (pos 7) (immed 8) (pos 9)) := rfl
theorem test_decode_in : decode 203 7 8 9 = .ok (.inp (rel 7)) := rfl
theorem test_decode_out : decode 204 7 8 9 = .ok (.out (rel 7)) := rfl
theorem test_decode_jt : decode 11105 7 8 9 = .ok (.jt (immed 7) (immed 8)) := rfl
theorem test_decode_jf : decode 2006 7 8 9 = .ok (.jf (pos 7) (rel 8)) := rfl
theorem test_decode_lt : decode 20107 7 8 9 = .ok (.lt (immed 7) (pos 8) (rel 9)) := rfl
theorem test_decode_eq : decode 1008 7 8 9 = .ok (.eq (pos 7) (immed 8) (pos 9)) := rfl
theorem test_decode_arb : decode 109 7 8 9 = .ok (.arb (immed 7)) := rfl
theorem test_decode_hlt : decode 22299 7 8 9 = .ok .hlt := rfl
/-- V-D15: an unused mode digit 1 is legal. Section 2.2 and V-D14, V-D8, V-D12: the others are rejected by name. -/
theorem test_decode_rejects :
    decode 1003 7 8 9 = .ok (.inp (pos 7)) ∧ decode 1103 7 8 9 = .error (.immediateWrite 0) ∧
    decode 40001 7 8 9 = .error (.illegalMode 2 4) ∧ decode 100 7 8 9 = .error .illegalOperation ∧
    decode (-99) 7 8 9 = .error .illegalOperation ∧ decode 31101 7 8 9 = .error (.illegalMode 2 3) :=
  ⟨rfl, rfl, rfl, rfl, rfl, rfl⟩

/-- Table bits: the second word's bits are 127..64. -/
theorem test_decodeTableWord :
    decodeTableWord 128 (109 + 5 * 2 ^ 64) = some (.arb (immed 5)) ∧ decodeTableWord 8 99 = some .hlt ∧
    decodeTableWord 8 10 = none := ⟨rfl, rfl, rfl⟩
theorem test_withFetchWord_fetches :
    (State.reset.withFetchWord 128 (109 + 5 * 2 ^ 64)).decodeAt = .ok (.arb (immed 5)) := rfl
theorem test_withFetchWord_runs :
    answers (fun t => t.rb.toInt == 5 && t.pc == 2) (step (State.reset.withFetchWord 128 (109 + 5 * 2 ^ 64))) = true := by
  decide

/-! ### The memory controller (95_test_vectors.md section 2.1) -/

/-- V-M1 to V-M12, the growing and the failing ones. -/
theorem test_growTo :
    growTo 5 3 = 5 ∧ growTo 5 4 = 5 ∧ growTo 5 5 = 10 ∧ growTo 5 100 = 160 ∧ growTo 1 0 = 1 ∧ growTo 1 1 = 2 ∧
    growTo 1 7 = 8 ∧ growTo 3 100 = 192 ∧ growTo 5 60 = 80 ∧ growTo 16 15 = 16 ∧ growTo 16 16 = 32 := by decide
/-- V-M9, V-M10. -/
theorem test_maxCapacity :
    (ensureCapacity 60 (startIn 100 [1, 2, 3, 4, 5] [])).isSome = true ∧
    (ensureCapacity 90 (startIn 100 [1, 2, 3, 4, 5] [])).isNone = true := by decide
/-- Writing 0, what an unlisted address reads as, removes the entry. -/
theorem test_write_zero_removes : Memory.set [(1, 7), (4, 9)] 4 0 = [(1, 7)] := by decide

/-! ### One step of each instruction (95_test_vectors.md) -/

/-- V-A6: the second operand and the write share a cell with the code; add reads both before it writes. -/
theorem test_add_A6 :
    answers (fun t => reads t 4 2 && t.pc == 4) (step (start [1, 1, 1, 4, 99, 5, 6, 0, 99] [])) = true := by decide
/-- V-A9: 2^63 - 1 plus 1 overflows; mem[5] is still 0. -/
theorem test_add_A9 :
    faultsWith { cause := .arithmeticOverflow, pc := some 0, word := some 1101, param := none,
                 value := some 9223372036854775808 }
      (step (start [1101, 9223372036854775807, 1, 5, 99, 0] [])) = true := by decide
/-- V-A7: (-4) * (-5). -/
theorem test_mul_A7 :
    answers (fun t => reads t 5 20 && t.pc == 4) (step (start [1102, -4, -5, 5, 99, 0] [])) = true := by decide
/-- V-A11: -2^63 times -1 overflows. -/
theorem test_mul_A11 :
    faultsWith { cause := .arithmeticOverflow, pc := some 0, word := some 1102, param := none,
                 value := some 9223372036854775808 }
      (step (start [1102, -9223372036854775808, -1, 5, 99, 0] [])) = true := by decide
/-- V-I2: in writes its own slot and takes one value. -/
theorem test_in_I2 :
    answers (fun t => reads t 1 77 && t.pc == 2 && t.inQ == [78]) (step (start [3, 1, 4, 1, 99] [77, 78])) = true := by
  decide
/-- V-I5: the fault comes before the read of the port; 5 is not consumed. -/
theorem test_in_I5 :
    answers (fun t => t.fault == { cause := .negativeAddress, pc := some 0, word := some 203, param := some (.index 0),
                                   value := some (-1) } && t.inQ == [5])
      (step (start [203, -1, 99] [5])) = true := by decide
/-- V-O1. -/
theorem test_out_O1 :
    answers (fun t => t.outQ == [.data (-7)] && t.pc == 2) (step (start [104, -7, 99] [])) = true := by decide
/-- V-O3's second step, from RB = -5: `out [rb+5]` sends mem[0]. -/
theorem test_out_O3 :
    answers (fun t => t.outQ == [.data 109])
      (step { start [109, -5, 204, 5, 99] [] with pc := 2, rb := -5 }) = true := by decide
/-- V-J3: a negative value is true. -/
theorem test_jt_J3 : answers (fun t => t.pc == 4) (step (start [1105, -2, 4, 99, 104, 5, 99] [])) = true := by decide
/-- V-J6: the jump itself does not fault; PC becomes -3. -/
theorem test_jt_J6 :
    answers (fun t => t.pc == -3 && t.run == .running) (step (start [1105, 1, -3] [])) = true := by decide
/-- V-J4, V-J5. -/
theorem test_jf_J4 : answers (fun t => t.pc == 4) (step (start [1106, 0, 4, 99, 104, 5, 99] [])) = true := by decide
theorem test_jf_J5 : answers (fun t => t.pc == 3) (step (start [1106, 7, 4, 99, 104, 5, 99] [])) = true := by decide
/-- V-C4: the comparison is signed, at both ends of i64. -/
theorem test_lt_C4 :
    answers (fun t => reads t 5 1 && t.pc == 4)
      (step (start [1107, -9223372036854775808, 9223372036854775807, 5, 99, 9] [])) = true := by decide
/-- V-C2: equal is not less. -/
theorem test_lt_C2 : answers (fun t => reads t 5 0) (step (start [1107, 3, 3, 5, 99, 9] [])) = true := by decide
/-- V-C5, V-C6. -/
theorem test_eq_C5 : answers (fun t => reads t 0 1 && t.pc == 4) (step (start [1108, 5, 5, 0, 99] [])) = true := by decide
theorem test_eq_C6 : answers (fun t => reads t 0 0) (step (start [1108, 5, -5, 0, 99] [])) = true := by decide
/-- V-B3's second step: `arb [rb+2]` reads mem[5] with the old RB. -/
theorem test_arb_B3 :
    answers (fun t => t.rb.toInt == -7 && t.pc == 4)
      (step { start [109, 3, 209, 2, 99, -10] [] with pc := 2, rb := 3 }) = true := by decide
/-- V-B4's second step: the new RB would leave i64. -/
theorem test_arb_B4 :
    answers (fun t => t.fault == { cause := .arithmeticOverflow, pc := some 2, word := some 109, param := none,
                                   value := some 9223372036854775808 } && t.rb == 9223372036854775807)
      (step { start [109, 9223372036854775807, 109, 1, 99] [] with pc := 2, rb := 9223372036854775807 }) = true := by
  decide
/-- V-H1. -/
theorem test_hlt_H1 :
    answers (fun t => t.run == .halted && t.pc == 0 && t.outQ == [.exit] && image t == some [99, 0, 0, 0])
      (step (start [99] [])) = true := by decide
/-- V-J8's second step: the fetch at 1000 grows CAP from 6 to 1536, and the word 0 there is illegal. -/
theorem test_fetch_J8 :
    answers (fun t => t.cap == 1536 && t.fault == { cause := .illegalOperation, pc := some 1000, word := some 0,
                                                    param := none, value := none })
      (step { start [1105, 1, 1000] [] with pc := 1000, cap := 6 }) = true := by decide
/-- V-P4 with MAX_CAPACITY = 64: address 100 is out of reach. -/
theorem test_capacity_P4 :
    faultsWith { cause := .capacityExhausted, pc := some 0, word := some 3, param := some (.index 0), value := some 100 }
      (step (startIn 64 [3, 100, 1, 101, 100, 101, 1001, 100, -1, 100, 1005, 100, 2, 4, 101, 99] [4])) = true := by
  decide

/-! ### Load, text, environment -/

theorem test_text_accepts :
    parseProgram [' ', '1', '0', ',', '-', '5', '\n', ',', '0', '0', '7'] = some [10, -5, 7] := by decide
theorem test_text_refuses :
    parseProgram ['+', '1'] = none ∧ parseProgram ['1', ',', ',', '2'] = none ∧ parseProgram [] = none ∧
    parseProgram ['1', ' ', '2'] = none ∧ parseProgram ['-'] = none ∧ parseProgram ['1', '-', '2'] = none := by decide
theorem test_text_range :
    parseProgram ['9','2','2','3','3','7','2','0','3','6','8','5','4','7','7','5','8','0','7'] =
      some [9223372036854775807] ∧
    parseProgram ['9','2','2','3','3','7','2','0','3','6','8','5','4','7','7','5','8','0','8'] = none := by decide
/-- R66, R67: `jmp t` is `jt #1, t`, and `hlt`'s line is 99. -/
theorem test_assemble :
    assemble (Pseudo.expand (.jmp (pos 9))) = some [105, 1, 9] ∧ assemble .hlt = some [99] ∧
    assemble (.inp (immed 0)) = none := by decide
/-- R126: a fault with empty channels destroys the worker; a send to it is answered as before (R115) and reaches nothing. -/
theorem test_destroyed :
    hostSend 7 { start [0] [] with run := .faulted } = (.delivered, { start [0] [] with run := .faulted }) ∧
    destroyed (act (.env (.send 7)) { start [0] [] with run := .faulted }) = true ∧
    destroyed { start [0] [] with run := .halted, outQ := [.exit] } = false := by decide
theorem test_workers :
    (spawn { maxCapacity := none } ['9', '9'] ['a'] []).length = 1 ∧
    (actAt 0 .engine (spawn { maxCapacity := none } ['9', '9'] ['a'] [])).map (fun s => s.run) = [.halted] := by decide

/-! ### Hypotheses shared by several witnesses -/

/-- The hypotheses of OverwrittenInstructionIsFetched. -/
def storeHypotheses (i : Instr) (j : Fin 3) (d : Operand) (v : Int) (s : State) : Prop :=
  s.memOk = true ∧ 1 ≤ s.cap ∧ i.wellFormed = true ∧ s.fetchOk = true ∧
    (∀ (k : Fin 3) (o : Operand), i.operands[k.val]? = some o → s.operandOk k o = true) ∧
    i.op.writeIndex = some j ∧ i.writeOperand = some d ∧ s.storedValue i = some v ∧ inI64 v = true

/-- The same in a form that evaluates. -/
theorem storeHypotheses_of_eval {i : Instr} {j : Fin 3} {d : Operand} {v : Int} {s : State}
    (h : s.memOk = true ∧ 1 ≤ s.cap ∧ i.wellFormed = true ∧ s.fetchOk = true ∧
      (∀ k : Fin 3, (i.operands[k.val]?.all fun o => s.operandOk k o) = true) ∧
      i.op.writeIndex = some j ∧ i.writeOperand = some d ∧ s.storedValue i = some v ∧ inI64 v = true) :
    storeHypotheses i j d v s := by
  obtain ⟨h1, h2, h3, h4, h5, h6⟩ := h
  exact ⟨h1, h2, h3, h4, fun k o ho => by simpa [ho] using h5 k, h6⟩

/-! ### Witnesses: for each obligation with hypotheses, operands and a state that meet them all -/

/-- Canonical words 1 (least) and 22208 (the highest of a write operation); R53's pairs 10099 and 110099 (legal, not
canonical) and 30099 and 130099 (illegal), V-D9's 99 and 100099, and a pair that reaches the top of i64. -/
theorem witness_CanonicalWordsAndTheirMultiples :
    ((Instr.add (pos 0) (pos 0) (pos 0)).wellFormed = true ∧ (encode (.add (pos 0) (pos 0) (pos 0)))[0]? = some 1) ∧
    ((Instr.eq (rel 0) (rel 0) (rel 0)).wellFormed = true ∧
      (encode (.eq (rel 0) (rel 0) (rel 0)))[0]? = some 22208) ∧
    (0 ≤ (10099 : Word).toInt ∧ 0 ≤ (110099 : Word).toInt ∧
      (100000 : Int) ∣ (110099 : Word).toInt - (10099 : Word).toInt) ∧
    (0 ≤ (30099 : Word).toInt ∧ 0 ≤ (130099 : Word).toInt ∧
      (100000 : Int) ∣ (130099 : Word).toInt - (30099 : Word).toInt) ∧
    (0 ≤ (99 : Word).toInt ∧ 0 ≤ (100099 : Word).toInt ∧
      (100000 : Int) ∣ (100099 : Word).toInt - (99 : Word).toInt) ∧
    (0 ≤ (22208 : Word).toInt ∧ 0 ≤ (9223372036854722208 : Word).toInt ∧
      (100000 : Int) ∣ (9223372036854722208 : Word).toInt - (22208 : Word).toInt) := by decide

theorem witness_DecodeOfEncodeIsIdentity :
    (Instr.add (rel (-9223372036854775808)) (immed 9223372036854775807) (rel (-1))).wellFormed = true ∧
    Instr.hlt.wellFormed = true := by decide

theorem witness_LengthIsFixedByOperation :
    decode 21202 0 2 1 = .ok (.mul (rel 0) (immed 2) (rel 1)) ∧ decode 22299 0 0 0 = .ok .hlt := ⟨rfl, rfl⟩

theorem witness_DecodeReadsDigitsAndSlots :
    decode 21202 0 2 1 = .ok (.mul (rel 0) (immed 2) (rel 1)) ∧
    (Instr.mul (rel 0) (immed 2) (rel 1)).operands[2]? = some (rel 1) ∧
    (encode (.mul (rel 0) (immed 2) (rel 1)))[0]? = some 21202 := ⟨rfl, rfl, rfl⟩

/-- V-D7, and the least word. -/
theorem witness_NegativeWordIsIllegal :
    ((-1 : Word).toInt < 0 ∧ (-9223372036854775808 : Word).toInt < 0) ∧
    ((start [-1] []).run = .running ∧ (start [-1] []).fetchOk = true ∧ (start [-1] []).instrWord.toInt < 0) := by decide

/-- V-D6, V-D13 and the word 0 of V-D5. -/
theorem witness_OperationOutsideTableIsIllegal :
    (0 ≤ (11198 : Word).toInt ∧ (11198 : Word).toInt.toNat % 100 ∉ [1, 2, 3, 4, 5, 6, 7, 8, 9, 99]) ∧
    (0 ≤ (10 : Word).toInt ∧ (10 : Word).toInt.toNat % 100 ∉ [1, 2, 3, 4, 5, 6, 7, 8, 9, 99]) ∧
    ((start [0] []).run = .running ∧ (start [0] []).fetchOk = true ∧ 0 ≤ (start [0] []).instrWord.toInt ∧
      (start [0] []).instrWord.toInt.toNat % 100 ∉ [1, 2, 3, 4, 5, 6, 7, 8, 9, 99]) := by decide

/-- V-D4 (the last digit, 3), a first digit 9, and V-D12's record. -/
theorem witness_FirstBadModeDigitIsReported :
    (0 ≤ (901 : Word).toInt ∧ (901 : Word).toInt.toNat % 100 ∈ [1, 2, 3, 4, 5, 6, 7, 8, 9, 99] ∧
      digit ((0 : Fin 3).val + 2) (901 : Word).toInt.toNat ∉ [0, 1, 2] ∧
      ∀ j : Fin 3, j < 0 → digit (j.val + 2) (901 : Word).toInt.toNat ∈ [0, 1, 2]) ∧
    decode 31101 1 1 0 = .error (.illegalMode 2 3) ∧
    ((start [30099] []).run = .running ∧ (start [30099] []).fetchOk = true ∧
      0 ≤ (start [30099] []).instrWord.toInt ∧
      (start [30099] []).instrWord.toInt.toNat % 100 ∈ [1, 2, 3, 4, 5, 6, 7, 8, 9, 99] ∧
      digit ((2 : Fin 3).val + 2) (start [30099] []).instrWord.toInt.toNat ∉ [0, 1, 2] ∧
      ∀ j : Fin 3, j < 2 → digit (j.val + 2) (start [30099] []).instrWord.toInt.toNat ∈ [0, 1, 2]) :=
  ⟨by decide, rfl, by decide⟩

/-- V-D11 at index 2, V-D14 at index 0. -/
theorem witness_ImmediateWriteIsIllegal :
    ((start [11101, 1, 1, 0, 99] []).run = .running ∧ (start [11101, 1, 1, 0, 99] []).fetchOk = true ∧
      0 ≤ (start [11101, 1, 1, 0, 99] []).instrWord.toInt ∧
      (start [11101, 1, 1, 0, 99] []).instrWord.toInt.toNat % 100 ∈ [1, 2, 7, 8] ∧
      (∀ k : Fin 3, digit (k.val + 2) (start [11101, 1, 1, 0, 99] []).instrWord.toInt.toNat ∈ [0, 1, 2]) ∧
      digit ((2 : Fin 3).val + 2) (start [11101, 1, 1, 0, 99] []).instrWord.toInt.toNat = 1) ∧
    ((start [103, 1, 99] [77]).run = .running ∧ (start [103, 1, 99] [77]).fetchOk = true ∧
      0 ≤ (start [103, 1, 99] [77]).instrWord.toInt ∧
      (start [103, 1, 99] [77]).instrWord.toInt.toNat % 100 = 3 ∧
      (∀ k : Fin 3, digit (k.val + 2) (start [103, 1, 99] [77]).instrWord.toInt.toNat ∈ [0, 1, 2]) ∧
      digit ((0 : Fin 3).val + 2) (start [103, 1, 99] [77]).instrWord.toInt.toNat = 1) := by decide

theorem witness_DecodedIsWellFormed :
    decode 203 7 8 9 = .ok (.inp (rel 7)) ∧
    ((Instr.inp (immed 1)).wellFormed = false ∧ (start [103, 1, 99] [77]).fetchOk = true) := ⟨rfl, by decide⟩

/-- V-M9 with a bound it just meets, and V-M10. -/
theorem witness_EnsureCapacityDoublesLeast :
    (1 ≤ (startIn 80 [1, 2, 3, 4, 5] []).cap ∧ 60 < 5 * 2 ^ 4 ∧ (∀ j < 4, 5 * 2 ^ j ≤ 60) ∧
      ∀ m, (startIn 80 [1, 2, 3, 4, 5] []).cfg.maxCapacity = some m → 5 * 2 ^ 4 ≤ m) ∧
    (1 ≤ (startIn 100 [1, 2, 3, 4, 5] []).cap ∧ (startIn 100 [1, 2, 3, 4, 5] []).cfg.maxCapacity = some 100 ∧
      100 < 5 * 2 ^ 5 ∧ 90 < 5 * 2 ^ 5 ∧ ∀ j < 5, 5 * 2 ^ j ≤ 90) := by
  refine ⟨⟨by decide, by decide, by decide, fun m h => ?_⟩, by decide⟩
  cases h
  decide

theorem witness_CapacityOnlyGrows :
    ∃ t, 1 ≤ (startIn 4 [99] []).cap ∧ step (startIn 4 [99] []) = .next t ∧
      (startIn 4 [99] []).cfg.maxCapacity = some 4 ∧ (startIn 4 [99] []).cap ≤ 4 := ⟨_, by decide, rfl, rfl, by decide⟩

/-- The highest address, CAP - 1, and the value 0, which removes a cell. -/
theorem witness_MemWriteThenRead :
    (start [1, 2, 3] []).memOk = true ∧ 2 < (start [1, 2, 3] []).cap := by decide

/-- V-A2: the sum is 2^63 - 1. -/
theorem witness_AddStoresExactSum :
    (start [1101, 9223372036854775807, 0, 5, 99, 0] []).memOk = true ∧
    1 ≤ (start [1101, 9223372036854775807, 0, 5, 99, 0] []).cap ∧ (pos 5).mode.writable = true ∧
    (start [1101, 9223372036854775807, 0, 5, 99, 0] []).fetchOk = true ∧
    (start [1101, 9223372036854775807, 0, 5, 99, 0] []).operandOk 0 (immed 9223372036854775807) = true ∧
    (start [1101, 9223372036854775807, 0, 5, 99, 0] []).operandOk 1 (immed 0) = true ∧
    (start [1101, 9223372036854775807, 0, 5, 99, 0] []).operandOk 2 (pos 5) = true ∧
    inI64 ((start [1101, 9223372036854775807, 0, 5, 99, 0] []).val 0 (immed 9223372036854775807) +
      (start [1101, 9223372036854775807, 0, 5, 99, 0] []).val 1 (immed 0)) = true := by decide

/-- V-A10: the sum is -2^63 - 1. -/
theorem witness_AddOverflowFaults :
    (pos 5).mode.writable = true ∧ (start [1101, -9223372036854775808, -1, 5, 99, 0] []).fetchOk = true ∧
    (start [1101, -9223372036854775808, -1, 5, 99, 0] []).operandOk 0 (immed (-9223372036854775808)) = true ∧
    (start [1101, -9223372036854775808, -1, 5, 99, 0] []).operandOk 1 (immed (-1)) = true ∧
    (start [1101, -9223372036854775808, -1, 5, 99, 0] []).operandOk 2 (pos 5) = true ∧
    inI64 ((start [1101, -9223372036854775808, -1, 5, 99, 0] []).val 0 (immed (-9223372036854775808)) +
      (start [1101, -9223372036854775808, -1, 5, 99, 0] []).val 1 (immed (-1))) = false := by decide

/-- V-A5: position operands, 99 * 99. -/
theorem witness_MulStoresExactProduct :
    (start [2, 4, 4, 5, 99, 0] []).memOk = true ∧ 1 ≤ (start [2, 4, 4, 5, 99, 0] []).cap ∧
    (pos 5).mode.writable = true ∧ (start [2, 4, 4, 5, 99, 0] []).fetchOk = true ∧
    (start [2, 4, 4, 5, 99, 0] []).operandOk 0 (pos 4) = true ∧
    (start [2, 4, 4, 5, 99, 0] []).operandOk 1 (pos 4) = true ∧
    (start [2, 4, 4, 5, 99, 0] []).operandOk 2 (pos 5) = true ∧
    inI64 ((start [2, 4, 4, 5, 99, 0] []).val 0 (pos 4) * (start [2, 4, 4, 5, 99, 0] []).val 1 (pos 4)) = true := by
  decide

/-- V-A12: the product is 2^63. -/
theorem witness_MulOverflowFaults :
    (pos 0).mode.writable = true ∧ (start [1102, 4611686018427387904, 2, 0, 99] []).fetchOk = true ∧
    (start [1102, 4611686018427387904, 2, 0, 99] []).operandOk 0 (immed 4611686018427387904) = true ∧
    (start [1102, 4611686018427387904, 2, 0, 99] []).operandOk 1 (immed 2) = true ∧
    (start [1102, 4611686018427387904, 2, 0, 99] []).operandOk 2 (pos 0) = true ∧
    inI64 ((start [1102, 4611686018427387904, 2, 0, 99] []).val 0 (immed 4611686018427387904) *
      (start [1102, 4611686018427387904, 2, 0, 99] []).val 1 (immed 2)) = false := by decide

/-- V-C2 for lt, V-C7 for eq: both outcomes of the comparison are met by these operands' equality. -/
theorem witness_LtStoresOneOrZero :
    (start [1107, 3, 3, 5, 99, 9] []).memOk = true ∧ 1 ≤ (start [1107, 3, 3, 5, 99, 9] []).cap ∧
    (pos 5).mode.writable = true ∧ (start [1107, 3, 3, 5, 99, 9] []).fetchOk = true ∧
    (start [1107, 3, 3, 5, 99, 9] []).operandOk 0 (immed 3) = true ∧
    (start [1107, 3, 3, 5, 99, 9] []).operandOk 1 (immed 3) = true ∧
    (start [1107, 3, 3, 5, 99, 9] []).operandOk 2 (pos 5) = true := by decide

theorem witness_EqStoresOneOrZero :
    (start [8, 0, 0, 0, 99] []).memOk = true ∧ 1 ≤ (start [8, 0, 0, 0, 99] []).cap ∧
    (pos 0).mode.writable = true ∧ (start [8, 0, 0, 0, 99] []).fetchOk = true ∧
    (start [8, 0, 0, 0, 99] []).operandOk 0 (pos 0) = true ∧
    (start [8, 0, 0, 0, 99] []).operandOk 1 (pos 0) = true ∧
    (start [8, 0, 0, 0, 99] []).operandOk 2 (pos 0) = true := by decide

/-- V-P7's in: a relative write operand. -/
theorem witness_InStoresOldestInput :
    (start [203, 0, 99] [21, 22]).memOk = true ∧ 1 ≤ (start [203, 0, 99] [21, 22]).cap ∧
    (rel 0).mode.writable = true ∧ (start [203, 0, 99] [21, 22]).fetchOk = true ∧
    (start [203, 0, 99] [21, 22]).operandOk 0 (rel 0) = true ∧ (start [203, 0, 99] [21, 22]).inQ = [21, 22] := by decide

/-- V-I4 for the wait; V-I5, and a fetch at a negative PC, for the fault. -/
theorem witness_InWaitsOrFaultsWithoutInput :
    ((pos 0).mode.writable = true ∧ (start [3, 0, 99] []).fetchOk = true ∧
      (start [3, 0, 99] []).operandOk 0 (pos 0) = true ∧ (start [3, 0, 99] []).inQ = []) ∧
    (start [203, -1, 99] [5]).operandOk 0 (rel (-1)) = false ∧
    ({ start [3, 0, 99] [] with pc := -1 } : State).fetchOk = false := by decide

/-- V-O1. -/
theorem witness_OutSendsValue :
    (start [104, -7, 99] []).fetchOk = true ∧ (start [104, -7, 99] []).operandOk 0 (immed (-7)) = true ∧
    (start [104, -7, 99] []).outReady = true := by decide

/-- V-O1 while OUTPUT does not accept; V-O4's operand for the fault. -/
theorem witness_OutWaitsOrFaultsWithoutOutput :
    (({ start [104, -7, 99] [] with outReady := false } : State).fetchOk = true ∧
      ({ start [104, -7, 99] [] with outReady := false } : State).operandOk 0 (immed (-7)) = true ∧
      ({ start [104, -7, 99] [] with outReady := false } : State).outReady = false) ∧
    ({ start [109, -5, 204, 0, 99] [] with pc := 2, rb := -5 } : State).operandOk 0 (rel 0) = false := by decide

/-- V-J3 (taken) and V-J2 (not taken). -/
theorem witness_JtJumpsOnNonzero :
    ((start [1105, -2, 4, 99] []).fetchOk = true ∧ (start [1105, -2, 4, 99] []).operandOk 0 (immed (-2)) = true ∧
      (start [1105, -2, 4, 99] []).operandOk 1 (immed 4) = true ∧ (start [1105, -2, 4, 99] []).val 0 (immed (-2)) ≠ 0) ∧
    ((start [1105, 0, 4, 99] []).fetchOk = true ∧ (start [1105, 0, 4, 99] []).operandOk 0 (immed 0) = true ∧
      (start [1105, 0, 4, 99] []).operandOk 1 (immed 4) = true ∧ (start [1105, 0, 4, 99] []).val 0 (immed 0) = 0) := by
  decide

/-- V-J4 (taken) and V-J5 (not taken). -/
theorem witness_JfJumpsOnZero :
    ((start [1106, 0, 4, 99] []).fetchOk = true ∧ (start [1106, 0, 4, 99] []).operandOk 0 (immed 0) = true ∧
      (start [1106, 0, 4, 99] []).operandOk 1 (immed 4) = true ∧ (start [1106, 0, 4, 99] []).val 0 (immed 0) = 0) ∧
    ((start [1106, 7, 4, 99] []).fetchOk = true ∧ (start [1106, 7, 4, 99] []).operandOk 0 (immed 7) = true ∧
      (start [1106, 7, 4, 99] []).operandOk 1 (immed 4) = true ∧ (start [1106, 7, 4, 99] []).val 0 (immed 7) ≠ 0) := by
  decide

/-- V-B4's two steps: the sum is 2^63 - 1, and then 2^63. -/
theorem witness_ArbAddsToRelativeBase :
    (start [109, 9223372036854775807, 99] []).fetchOk = true ∧
    (start [109, 9223372036854775807, 99] []).operandOk 0 (immed 9223372036854775807) = true ∧
    inI64 ((start [109, 9223372036854775807, 99] []).rb.toInt +
      (start [109, 9223372036854775807, 99] []).val 0 (immed 9223372036854775807)) = true := by decide

theorem witness_ArbOverflowFaults :
    ({ start [109, 1, 99] [] with rb := 9223372036854775807 } : State).fetchOk = true ∧
    ({ start [109, 1, 99] [] with rb := 9223372036854775807 } : State).operandOk 0 (immed 1) = true ∧
    inI64 (({ start [109, 1, 99] [] with rb := 9223372036854775807 } : State).rb.toInt +
      ({ start [109, 1, 99] [] with rb := 9223372036854775807 } : State).val 0 (immed 1)) = false := by decide

theorem witness_HltHaltsAndSendsExit : (start [99] []).fetchOk = true := by decide

theorem witness_StepRunsDecodedInstruction :
    (start [2, 4, 4, 5, 99, 0] []).run = .running ∧ (start [2, 4, 4, 5, 99, 0] []).fetchOk = true ∧
    decode ((start [2, 4, 4, 5, 99, 0] []).read 0) ((start [2, 4, 4, 5, 99, 0] []).read 1)
      ((start [2, 4, 4, 5, 99, 0] []).read 2) ((start [2, 4, 4, 5, 99, 0] []).read 3) =
      .ok (.mul (pos 4) (pos 4) (pos 5)) := ⟨rfl, by decide, rfl⟩

theorem witness_TerminalStatesStayTerminal :
    ({ start [99] [] with run := .halted } : State).run ≠ .running ∧
    ({ start [99] [] with run := .faulted } : State).run ≠ .running := by decide

/-- V-H1 (a step to Halted), V-D5 (to Faulted), V-O1 (Running to Running). -/
theorem witness_RunStateTransitions :
    (∃ t, step (start [99] []) = .next t ∧ t.run = .halted) ∧ (∃ t, step (start [0] []) = .next t ∧ t.run = .faulted) ∧
    (∃ t, step (start [104, -7, 99] []) = .next t ∧ t.run = .running) := ⟨⟨_, rfl, rfl⟩, ⟨_, rfl, rfl⟩, ⟨_, rfl, rfl⟩⟩

/-- Each clause: arb changes RB, add and in change a cell, hlt. -/
theorem witness_WhichInstructionWritesWhat :
    (∃ t, exec (.arb (immed 7)) (start [109, 7, 99] []) = .next t ∧ t.rb ≠ (start [109, 7, 99] []).rb) ∧
    (∃ t, exec (.add (pos 0) (pos 0) (pos 0)) (start [1, 0, 0, 0, 99] []) = .next t ∧
      t.read 0 ≠ (start [1, 0, 0, 0, 99] []).read 0) ∧
    (∃ t, exec (.inp (pos 1)) (start [3, 1, 99] [77]) = .next t ∧ t.read 1 ≠ (start [3, 1, 99] [77]).read 1) ∧
    (∃ t, exec .hlt (start [99] []) = .next t) :=
  ⟨⟨_, rfl, by decide⟩, ⟨_, rfl, by decide⟩, ⟨_, rfl, by decide⟩, ⟨_, rfl⟩⟩

/-- Each clause: hlt, a taken jt, a taken jf, and an instruction that only advances. -/
theorem witness_PcUpdateOfCompletedStep :
    (∃ t, (start [99] []).run = .running ∧ exec .hlt (start [99] []) = .next t ∧ t.run ≠ .faulted ∧
      needsInput .hlt (start [99] []) = false ∧ needsOutput .hlt (start [99] []) = false) ∧
    (∃ t, exec (.jt (immed 1) (immed (-3))) (start [1105, 1, -3] []) = .next t ∧ t.run ≠ .faulted ∧
      (start [1105, 1, -3] []).val 0 (immed 1) ≠ 0) ∧
    (∃ t, exec (.jf (immed 0) (immed 4)) (start [1106, 0, 4, 99] []) = .next t ∧ t.run ≠ .faulted ∧
      (start [1106, 0, 4, 99] []).val 0 (immed 0) = 0) ∧
    (∃ t, exec (.out (immed (-7))) (start [104, -7, 99] []) = .next t ∧ t.run ≠ .faulted ∧
      needsInput (.out (immed (-7))) (start [104, -7, 99] []) = false ∧
      needsOutput (.out (immed (-7))) (start [104, -7, 99] []) = false) :=
  ⟨⟨_, rfl, rfl, by decide, rfl, rfl⟩, ⟨_, rfl, by decide, by decide⟩, ⟨_, rfl, by decide, by decide⟩,
   ⟨_, rfl, by decide, rfl, rfl⟩⟩

theorem witness_TakenJumpsAreTheOnlyOtherPcChange :
    (∃ t, step (start [1105, 1, -3] []) = .next t ∧ t.pc ≠ (start [1105, 1, -3] []).pc) ∧
    (∃ t, step (start [104, -7, 99] []) = .next t ∧ t.pc ≠ (start [104, -7, 99] []).pc) :=
  ⟨⟨_, rfl, by decide⟩, ⟨_, rfl, by decide⟩⟩

/-- V-A9: a fault after memory could have changed. -/
theorem witness_FaultsArePrecise :
    ∃ t, (start [1101, 9223372036854775807, 1, 5, 99, 0] []).run = .running ∧
      step (start [1101, 9223372036854775807, 1, 5, 99, 0] []) = .next t ∧ t.run = .faulted := ⟨_, rfl, rfl, rfl⟩

theorem witness_FaultEntryRecord :
    (∃ t, (start [30099] []).run = .running ∧ step (start [30099] []) = .next t ∧ t.run = .faulted) ∧
    (∃ t, step { start [99] [] with pc := -3 } = .next t ∧ t.run = .faulted) := ⟨⟨_, rfl, rfl, rfl⟩, ⟨_, rfl, rfl⟩⟩

/-- V-D12: two checks fail and the earlier one is the fault; V-H1: none fails. -/
theorem witness_FaultPriority :
    (start [31101, 1, 1, 0, 99] []).run = .running ∧
    firstFault (start [31101, 1, 1, 0, 99] []) = some { cause := .illegalMode, pc := some 0, word := some 31101,
                                                        param := some (.index 2), value := some 3 } ∧
    firstFault (start [99] []) = none ∧
    (∃ t, step (start [31101, 1, 1, 0, 99] []) = .next t ∧ t.run = .faulted) := ⟨rfl, by decide, by decide, _, rfl, rfl⟩

/-- Each clause: PC = -1, a bound one short of the span, a halting step that grows. -/
theorem witness_FetchChecksAndSpan :
    (({ start [99] [] with pc := -1 } : State).run = .running ∧ 1 ≤ ({ start [99] [] with pc := -1 } : State).cap ∧
      ({ start [99] [] with pc := -1 } : State).pc < 0) ∧
    ((startIn 3 [99] []).run = .running ∧ 1 ≤ (startIn 3 [99] []).cap ∧ 0 ≤ (startIn 3 [99] []).pc ∧
      (startIn 3 [99] []).fits ((startIn 3 [99] []).pc + 3).toNat = false) ∧
    ((startIn 4 [99] []).fetchOk = true ∧ enabled (startIn 4 [99] []) = true ∧
      ∃ t, step (startIn 4 [99] []) = .next t ∧ t.run ≠ .faulted) := ⟨by decide, by decide, by decide, by decide, _, rfl, by decide⟩

/-- V-O5 (index 0, negative), a third operand out of reach behind two good ones, and an immediate operand. -/
theorem witness_OperandAddressChecks :
    ((Instr.add (pos (-1)) (pos 0) (pos 0)).wellFormed = true ∧ (start [1, -1, 0, 0, 99] []).fetchOk = true ∧
      (Instr.add (pos (-1)) (pos 0) (pos 0)).operands[(0 : Fin 3).val]? = some (pos (-1)) ∧
      (start [1, -1, 0, 0, 99] []).ea 0 (pos (-1)) < 0) ∧
    ((Instr.add (pos 0) (pos 1) (pos 8)).wellFormed = true ∧ (startIn 8 [1, 0, 1, 8, 99] []).fetchOk = true ∧
      (Instr.add (pos 0) (pos 1) (pos 8)).operands[(2 : Fin 3).val]? = some (pos 8) ∧
      (startIn 8 [1, 0, 1, 8, 99] []).operandOk 0 (pos 0) = true ∧
      (startIn 8 [1, 0, 1, 8, 99] []).operandOk 1 (pos 1) = true ∧
      0 ≤ (startIn 8 [1, 0, 1, 8, 99] []).ea 2 (pos 8) ∧
      (startIn 8 [1, 0, 1, 8, 99] []).fits ((startIn 8 [1, 0, 1, 8, 99] []).addr 2 (pos 8)) = false) ∧
    ((Instr.out (immed (-7))).wellFormed = true ∧ (startIn 6 [104, -7, 99] []).fetchOk = true ∧
      (Instr.out (immed (-7))).operands[(0 : Fin 3).val]? = some (immed (-7)) ∧ (immed (-7)).mode = .immediate) := by
  decide

/-- V-I4 waits for input; V-O1 waits when OUTPUT does not accept. -/
theorem witness_WaitingIsExactAndChangesNothing :
    waitingInput (start [3, 0, 99] []) = true ∧ enabled (start [3, 0, 99] []) = false ∧
    waitingOutput { start [104, -7, 99] [] with outReady := false } = true := by decide

theorem witness_PortTrafficOfAStep :
    (∃ t, step (start [3, 1, 99] [77]) = .next t ∧ (start [3, 1, 99] [77]).inQ = 77 :: t.inQ) ∧
    (∃ t, step (start [104, -7, 99] []) = .next t ∧ t.outQ = [.data (-7)]) ∧
    (∃ t, step (start [99] []) = .next t ∧ t.outQ = [.exit]) := ⟨⟨_, rfl, rfl⟩, ⟨_, rfl, rfl⟩, ⟨_, rfl, rfl⟩⟩

/-- A run that halts and is received, and one that has not halted. -/
theorem witness_ExitOnceAndLast :
    load { maxCapacity := none } [104, 5, 99] = some (start [104, 5, 99] []) ∧
    (runActions [.engine, .engine, .env .recv] (start [104, 5, 99] [])).run = .halted ∧
    received [.engine, .engine, .env .recv] (start [104, 5, 99] []) = [.data 5] ∧
    (runActions [.engine] (start [104, 5, 99] [])).run ≠ .halted := by decide

/-- Halted, running, faulted with a message left, and the worker that a fault with empty channels destroys. -/
theorem witness_SendAfterExitIsDiscarded :
    ({ start [99] [] with run := .halted } : State).run = .halted ∧ (start [99] []).run = .running ∧
    ({ start [0] [] with run := .faulted, outQ := [.data 5] } : State).run = .faulted ∧
    (({ start [0] [] with run := .faulted } : State).run ≠ .running ∧
      ({ start [0] [] with run := .faulted } : State).inQ = [] ∧
      ({ start [0] [] with run := .faulted } : State).outQ = []) ∧
    destroyed { start [0] [] with run := .faulted } = true := by decide

theorem witness_RecvAndExitedFlag :
    ({ start [99] [] with outQ := [.data 5, .exit] } : State).outQ = .data 5 :: [.exit] ∧
    ({ start [99] [] with outQ := [.exit] } : State).outQ = .exit :: [] ∧ (start [99] []).outQ = [] ∧
    hasExited { start [99] [] with run := .halted, exited := true } = true := by decide

theorem witness_ImageExactlyAtHalt :
    (start [99] []).run ≠ .halted ∧ ({ start [1, 2, 99] [] with run := .halted } : State).run = .halted ∧
    2 < ({ start [1, 2, 99] [] with run := .halted } : State).cap := by decide

/-- As many words as MAX_CAPACITY allows. -/
theorem witness_LoadGivesResetState :
    ([3, 0, 99] : List Word) ≠ [] ∧ ∀ m, ({ maxCapacity := some 3 } : Config).maxCapacity = some m →
      ([3, 0, 99] : List Word).length ≤ m := by
  refine ⟨by decide, fun m h => ?_⟩
  cases h
  decide

theorem witness_LoadTextSplitsAtCommas :
    parseProgram ['3', '\n'] = some [3] ∧ parseProgram ['-', '1'] = some [-1] ∧ parseProgram ['x'] = none ∧
    parseProgram [] = none := by decide

/-- The four white space characters, and the first and the last digit. -/
theorem witness_LoadItemHasItsDecimalValue :
    (∀ c ∈ [' ', '\t'], isSpace c = true) ∧ (∀ c ∈ ['\r', '\n'], isSpace c = true) ∧ ['0', '9'] ≠ [] ∧
    (∀ c ∈ ['0', '9'], c.isDigit = true) := by
  simp [isSpace, Char.isDigit]

/-- A lone '-', a misplaced '-' and white space inside an item are comma-free and not items; then the other clauses. -/
theorem witness_LoadRefusesOtherText :
    (∀ t ∈ [['-'], ['1', '-', '2'], ['1', ' ', '2']], (∀ c ∈ t, c ≠ ',') ∧
      ¬ ∃ (pre post ds : List Char) (neg : Bool), (∀ c ∈ pre, isSpace c = true) ∧ (∀ c ∈ post, isSpace c = true) ∧
        ds ≠ [] ∧ (∀ c ∈ ds, c.isDigit = true) ∧ t = pre ++ ((if neg then ['-'] else []) ++ ds) ++ post) ∧
    (∃ c ∈ ['+', '1'], c.isDigit = false ∧ c ≠ '-' ∧ c ≠ ',' ∧ isSpace c = false) ∧
    (∀ c ∈ [' ', '\n'], isSpace c = true) := by
  refine ⟨?_, by simp [isSpace, Char.isDigit], by simp [isSpace]⟩
  intro t ht
  refine ⟨by
    simp only [List.mem_cons, List.not_mem_nil, or_false] at ht
    rcases ht with rfl | rfl | rfl <;> simp, ?_⟩
  rintro ⟨pre, post, ds, neg, hpre, hpost, hne, hds, rfl⟩
  have hit : ∀ c ∈ (if neg then ['-'] else []) ++ ds, isSpace c = false := by
    intro c hc
    rcases List.mem_append.mp hc with hc | hc
    · cases neg <;> simp at hc; subst hc; decide
    · exact digit_not_space (hds c hc)
  have htrim := trim_item hpre hpost (by cases neg <;> simp [hne]) hit
  have hmem : ∀ u ∈ [['-'], ['1', '-', '2'], ['1', ' ', '2']], ∀ ds : List Char, ds ≠ [] →
      (∀ c ∈ ds, c.isDigit = true) → ∀ neg : Bool, trim u ≠ (if neg then ['-'] else []) ++ ds := by
    intro u hu ds hne hds neg he
    have hw : trim u = u := by
      simp only [List.mem_cons, List.not_mem_nil, or_false] at hu
      rcases hu with rfl | rfl | rfl <;> simp [trim, isSpace]
    rw [hw] at he
    simp only [List.mem_cons, List.not_mem_nil, or_false] at hu
    rcases hu with rfl | rfl | rfl <;> cases neg <;> simp at he <;> subst he <;> simp [Char.isDigit] at hds hne
  exact hmem _ ht ds hne hds neg htrim

/-- Steps from states with the invariant: one that halts, one that faults, one that grows memory under a bound. -/
theorem witness_InvariantKeptByStep :
    (∃ t, (start [99] []).inv = true ∧ step (start [99] []) = .next t ∧ t.run = .halted) ∧
    (∃ t, State.reset.inv = true ∧ step State.reset = .next t ∧ t.run = .faulted) ∧
    (∃ t, (startIn 12 [1101, -3, 5, 5, 99, 0] []).inv = true ∧
      step (startIn 12 [1101, -3, 5, 5, 99, 0] []) = .next t ∧ t.pc = 4) :=
  ⟨⟨_, by decide, rfl, rfl⟩, ⟨_, by decide, rfl, rfl⟩, ⟨_, by decide, rfl, rfl⟩⟩

/-- Running, and halted with the Exit still to be received. -/
theorem witness_InvariantKeptByEnvironment :
    (start [3, 0, 99] []).inv = true ∧
    ({ start [99] [] with run := .halted, outQ := [.data 5, .exit] } : State).inv = true := by decide

/-- The same program at CAP = 3 and at CAP = 6. -/
theorem witness_ProgramNeverSeesCapacity :
    (start [3, 0, 99] []).inv = true ∧ ({ start [3, 0, 99] [] with cap := 6 } : State).inv = true ∧
    (start [3, 0, 99] []).cfg.maxCapacity = none ∧
    ({ start [3, 0, 99] [] with cap := 6 } : State).cfg.maxCapacity = none ∧
    AgreeButCap (start [3, 0, 99] []) { start [3, 0, 99] [] with cap := 6 } := by
  refine ⟨by decide, by decide, rfl, rfl, fun a => ?_, rfl, rfl, rfl, rfl, rfl, rfl, rfl, rfl⟩
  match a with
  | 0 => rfl
  | 1 => rfl
  | 2 => rfl
  | 3 => rfl
  | 4 => rfl
  | 5 => rfl
  | a + 6 => rfl

/-- A step that takes the oldest of its input, a step of a halted instance, a step that halts and one that faults. -/
theorem witness_LateInputLeavesTheSameState :
    (∃ t, waitingInput (start [3, 1, 99] [77]) = false ∧ step (start [3, 1, 99] [77]) = .next t ∧
      t.run = (start [3, 1, 99] [77]).run) ∧
    (∃ t, waitingInput { start [99] [] with run := .halted } = false ∧
      step { start [99] [] with run := .halted } = .next t ∧ t.run = .halted) ∧
    (∃ t, step (start [99] []) = .next t ∧ (start [99] []).run = .running ∧ t.run ≠ .running) ∧
    (∃ t, step (start [0] []) = .next t ∧ (start [0] []).run = .running ∧ t.run ≠ .running ∧ destroyed t = true) ∧
    (∃ t, step (start [0] [7]) = .next t ∧ (start [0] [7]).run = .running ∧ t.run ≠ .running ∧ destroyed t = false) :=
  ⟨⟨_, by decide, rfl, rfl⟩, ⟨_, by decide, rfl, rfl⟩, ⟨_, rfl, rfl, by decide⟩, ⟨_, rfl, rfl, by decide, rfl⟩,
    ⟨_, rfl, rfl, by decide, rfl⟩⟩

theorem witness_WorkersShareNothing :
    (1 : Nat) ≠ 0 ∧ 1 < [start [99] [], start [3, 0, 99] []].length := by decide

/-- The schedule of engine steps alone is weakly fair; V-J10's loop has an enabled step at its start. -/
theorem witness_EnabledStepIsEventuallyTaken :
    (enabled (start [3, 0, 99] [5]) = true ∧ EnvEvent.send 7 ≠ .accept false) ∧
    (WeaklyFair (fun _ => .engine) (start [1105, 1, 0] []) ∧
      (∀ n : Nat, (fun _ : Nat => Action.engine) n ≠ .env (.accept false)) ∧
      enabled (trace (fun _ => .engine) (start [1105, 1, 0] []) 0) = true) :=
  ⟨by decide, fun n => ⟨n, Nat.le_refl n, .inr rfl⟩, fun _ h => (nomatch h), by decide⟩

/-- V-P5: add #0, #99 into address 4, the next instruction. The same for mul, lt, eq, and for in at address 2. -/
theorem witness_OverwrittenInstructionIsFetched :
    (storeHypotheses (.add (immed 0) (immed 99) (pos 4)) 2 (pos 4) 99 (start [1101, 0, 99, 4, 0] []) ∧
      (start [1101, 0, 99, 4, 0] []).ea 2 (pos 4) = 4) ∧
    storeHypotheses (.mul (immed 9) (immed 11) (pos 4)) 2 (pos 4) 99 (start [1102, 9, 11, 4, 0] []) ∧
    storeHypotheses (.lt (immed (-1)) (immed 0) (pos 4)) 2 (pos 4) 1 (start [1107, -1, 0, 4, 0] []) ∧
    storeHypotheses (.eq (immed (-1)) (immed 0) (rel 5)) 2 (rel 5) 0 (start [21108, -1, 0, 5, 0] []) ∧
    storeHypotheses (.inp (pos 2)) 0 (pos 2) (-9223372036854775808) (start [3, 2, 0] [-9223372036854775808]) :=
  ⟨⟨storeHypotheses_of_eval (by decide), by decide⟩, storeHypotheses_of_eval (by decide),
    storeHypotheses_of_eval (by decide), storeHypotheses_of_eval (by decide), storeHypotheses_of_eval (by decide)⟩

end Sys2Proof.Tests
end

section
/-! What a step can end in, said once for the statements about the state, and what each end leaves of each field. -/

namespace Sys2Proof.Machine

/-! ### The ends of a step -/

/-- The ends of a step from `s`: no step is enabled (R80), a wait at a port (R81), fault entry after growth that fits
(R103), or the committed state of the instruction at PC (R77, R78). -/
inductive StepEnd (s : State) : State → Prop where
  | terminal (hr : s.run ≠ .running) : StepEnd s s
  | waits (i : Instr) (hr : s.run = .running) (hi : s.decodeAt = .ok i) (hc : firstOf (checks s i) = none)
      (hw : (needsInput i s || needsOutput i s) = true) : StepEnd s s
  | faults (r : FaultRecord) (n : Nat) (hr : s.run = .running) (hf : firstFault s = some r) (hn : Reaches s n) :
      StepEnd s (faultState r (s.grow n))
  | commits (i : Instr) (hr : s.run = .running) (hi : s.decodeAt = .ok i) (hc : firstOf (checks s i) = none)
      (hn : Reaches s (s.top (addrs s i))) : StepEnd s (commit s i)

theorem stepEnd_of_step {s t : State} (h : step s = .next t) : StepEnd s t := by
  by_cases hr : s.run = .running
  · rcases step_cases hr with ⟨r, n, hf, hn, hs⟩ | ⟨i, hi, -, hs, hc, hn, he⟩
    · rw [hs] at h
      cases h
      exact .faults r n hr hf hn
    · rw [hs, he] at h
      cases h
      split
      · next hw => exact .waits i hr hi hc hw
      · exact .commits i hr hi hc hn
  · rw [step_terminal hr] at h
    cases h
    exact .terminal hr

theorem step_next (s : State) : ∃ t, step s = .next t := by
  by_cases hr : s.run = .running
  · rcases step_cases hr with ⟨_, _, _, _, h⟩ | ⟨_, _, _, h, _, _, he⟩
    · exact ⟨_, h⟩
    · exact ⟨_, h.trans he⟩
  · exact ⟨s, step_terminal hr⟩

/-! ### Fields of the committed state -/

theorem commit_exited (s : State) (i : Instr) : (commit s i).exited = s.exited := by
  cases i with
  | jt c g | jf c g => simp only [commit]; split <;> rfl
  | _ => rfl

theorem commit_rb {s : State} {i : Instr} (h : i.op ≠ .arb) : (commit s i).rb = s.rb := by
  cases i with
  | arb a => exact absurd rfl h
  | jt c g | jf c g => simp only [commit]; split <;> rfl
  | _ => rfl

/-- The highest address that a completed step touches is below a finite MAX_CAPACITY. -/
theorem top_lt_maxCapacity {s : State} {n m : Nat} (hs : s.capOk = true) (hn : Reaches s n)
    (hm : s.cfg.maxCapacity = some m) : n < m := by
  have hcap := capOk_of_grown (t := s.grow n) hs hn rfl rfl
  simp only [State.capOk, Bool.and_eq_true, decide_eq_true_eq, grow_cfg, hm, Option.all_some] at hs hcap
  exact lt_of_lt_of_le (lt_growTo hs.1 n) hcap.2

/-! ### The parts of the invariant, read as propositions -/

theorem inv_iff {s : State} : s.inv = true ↔
    s.memOk = true ∧ s.capOk = true ∧ s.pcOk = true ∧ s.faultOk = true ∧ s.channelOk = true := by
  simp only [State.inv, Bool.and_eq_true, and_assoc]

theorem one_le_cap {s : State} (h : s.capOk = true) : 1 ≤ s.cap := by
  simp only [State.capOk, Bool.and_eq_true, decide_eq_true_eq] at h
  exact h.1

theorem pcOk_iff {s : State} :
    s.pcOk = true ↔ ∀ m, s.cfg.maxCapacity = some m → m ≤ 2 ^ 63 - 1 → inI64 s.pc = true := by
  unfold State.pcOk
  cases s.cfg.maxCapacity with
  | none => simp
  | some m =>
    simp only [Option.all_some, Bool.or_eq_true, decide_eq_true_eq, Option.some_inj, forall_eq', ← not_le]
    exact Decidable.imp_iff_not_or.symm

/-- FAULT of an unfaulted state is clear, of a faulted one as R102 and R103 say. -/
theorem faultOk_iff {s : State} : s.faultOk = true ↔
    if s.run = .faulted then s.fault.cause ≠ .none ∧ s.fault.pc = some s.pc ∧ s.fault.wellShaped = true
    else s.fault = FaultRecord.clear := by
  unfold State.faultOk
  cases s.run <;> simp [and_assoc]

/-- The output channel depends on RUN only through whether it is Halted. -/
theorem channelOk_iff {s : State} : s.channelOk = true ↔
    if s.run = .halted then (if s.exited then s.outQ = [] else endsInExit s.outQ = true)
    else s.exited = false ∧ onlyData s.outQ = true := by
  unfold State.channelOk
  cases s.run <;> cases s.exited <;> simp

/-! ### Each part of the invariant is kept by a step -/

theorem pcOk_commit {s : State} {i : Instr} (hs : s.capOk = true) (hi : firstOf (checks s i) = none)
    (hn : Reaches s (s.top (addrs s i))) (hp : s.pcOk = true) : (commit s i).pcOk = true := by
  rw [pcOk_iff] at hp ⊢
  rw [commit_cfg]
  intro m hm hb
  have htop := top_lt_maxCapacity hs hn hm
  have hspan := fetchSpan_le_top s (addrs s i)
  have hfetch : firstOf (fetchFaults s) = none :=
    (firstOf_append_eq_none.mp (firstOf_append_eq_none.mp hi).1).1
  have hpc : 0 ≤ s.pc := by
    have h := firstOf_fetchFaults.mp hfetch
    simp only [State.fetchOk, Bool.and_eq_true, decide_eq_true_eq] at h
    exact h.1
  have hnext (k : Nat) (hk : k ≤ 4) : inI64 (s.pc + k) = true := by
    simp only [inI64, Bool.and_eq_true, decide_eq_true_eq]
    omega
  cases i with
  | jt c g | jf c g =>
    simp only [commit]
    split
    · exact toInt_inI64 _
    · exact hnext 3 (by decide)
  | hlt => exact hp m hm hb
  | inp d | out a | arb a => exact hnext 2 (by decide)
  | add a b d | mul a b d | lt a b d | eq a b d => exact hnext 4 (by decide)

theorem step_keeps_faultOk {s t : State} (h : step s = .next t) (hs : s.faultOk = true) : t.faultOk = true := by
  cases stepEnd_of_step h with
  | terminal | waits => exact hs
  | faults r n hr hf hn =>
    obtain ⟨hcause, hpc, -, -, hshape⟩ := recordOk_of_firstFault hf
    exact faultOk_iff.mpr ⟨hcause, hpc, hshape⟩
  | commits i hr hi hc hn =>
    rw [faultOk_iff, hr] at hs
    rw [faultOk_iff, commit_run, commit_fault, hr]
    split <;> exact hs

theorem step_exited {s t : State} (h : step s = .next t) : t.exited = s.exited := by
  cases stepEnd_of_step h with
  | terminal | waits | faults => rfl
  | commits i => exact commit_exited s i

theorem step_cfg {s t : State} (h : step s = .next t) : t.cfg = s.cfg := by
  cases stepEnd_of_step h with
  | terminal | waits | faults => rfl
  | commits i => exact commit_cfg s i

theorem step_keeps_channelOk {s t : State} (h : step s = .next t) (hs : s.channelOk = true) :
    t.channelOk = true := by
  rw [channelOk_iff] at hs ⊢
  rw [step_exited h]
  rcases step_outQ_cases h with ⟨hq, hrun⟩ | ⟨v, hq, hr, ht⟩ | ⟨hr, ht, hq⟩
  · rw [hq]
    simpa only [hrun] using hs
  · rw [if_neg (by rw [hr]; decide)] at hs
    rw [if_neg ht, hq]
    exact ⟨hs.1, onlyData_append hs.2⟩
  · rw [if_neg (by rw [hr]; decide)] at hs
    rw [if_pos ht, hs.1, hq]
    exact endsInExit_append hs.2

theorem step_keeps_inv {s t : State} (hs : s.inv = true) (h : step s = .next t) : t.inv = true := by
  rw [inv_iff] at hs ⊢
  obtain ⟨hmem, hcap, hpc, hfault, hchannel⟩ := hs
  have hf := step_keeps_faultOk h hfault
  have hq := step_keeps_channelOk h hchannel
  cases stepEnd_of_step h with
  | terminal | waits => exact ⟨hmem, hcap, hpc, hfault, hchannel⟩
  | faults r n _ _ hn => exact ⟨memOk_grow hmem n, capOk_of_grown hcap hn rfl rfl, hpc, hf, hq⟩
  | commits i _ _ hc hn =>
    exact ⟨commit_memOk (one_le_cap hcap) hmem, capOk_of_grown hcap hn (commit_cap s i) (commit_cfg s i),
      pcOk_commit hcap hc hn hpc, hf, hq⟩

/-- Settles O52: each part of the invariant is kept at each end of a step. -/
theorem invariantKeptByStep : Obligations.InvariantKeptByStep :=
  fun _ _ => step_keeps_inv

end Sys2Proof.Machine
end

section
/-! The moves of the host and the environment keep the invariant, and what a program can see does not depend on CAP. -/

namespace Sys2Proof.Machine

/-! ### The environment and the invariant -/

/-- No part of the invariant reads the input channel. -/
theorem queueInput_inv (v : Word) (s : State) : (queueInput v s).inv = s.inv := rfl

/-- Taking the oldest message leaves a channel of the shape that R112 gives it. -/
theorem hostRecv_keeps_channelOk {s : State} (hs : s.channelOk = true) : (hostRecv s).2.channelOk = true := by
  rw [channelOk_iff] at hs
  rcases hostRecv_cases s with ⟨-, h⟩ | ⟨v, q, hq, h⟩ | ⟨q, hq, h⟩ <;> rw [h, channelOk_iff]
  · exact hs
  · rw [hq] at hs
    cases hx : s.exited with
    | true => simp [hx] at hs
    | false => simpa [hx, endsInExit, onlyData] using hs
  · rw [hq] at hs
    by_cases hr : s.run = .halted
    · cases hx : s.exited with
      | true => simp [hr, hx] at hs
      | false => simpa [hr, hx, endsInExit] using hs
    · simp [hr, onlyData] at hs

theorem applyEvent_keeps_inv (e : EnvEvent) {s : State} (hs : s.inv = true) : (applyEvent e s).inv = true := by
  cases e with
  | send v =>
    rcases hostSend_cases v s with h | h <;> rw [applyEvent, h]
    · exact hs
    · rwa [queueInput_inv]
  | recv =>
    rw [inv_iff] at hs ⊢
    obtain ⟨hmem, hcap, hpc, hfault, hchannel⟩ := hs
    have hq := hostRecv_keeps_channelOk hchannel
    rw [applyEvent]
    rcases hostRecv_cases s with ⟨-, h⟩ | ⟨v, q, -, h⟩ | ⟨q, -, h⟩ <;> rw [h] at hq ⊢ <;>
      exact ⟨hmem, hcap, hpc, hfault, hq⟩
  | accept b => exact hs

/-- Settles O53: of the invariant, a move of the environment touches the output channel alone. -/
theorem invariantKeptByEnvironment : Obligations.InvariantKeptByEnvironment :=
  fun e _ => applyEvent_keeps_inv e

/-! ### Actions -/

theorem act_engine {s t : State} (h : step s = .next t) : act .engine s = t := by
  rw [act, h]

theorem act_keeps_inv (a : Action) {s : State} (hs : s.inv = true) : (act a s).inv = true := by
  cases a with
  | engine =>
    obtain ⟨t, ht⟩ := step_next s
    rw [act_engine ht]
    exact step_keeps_inv hs ht
  | env e => exact applyEvent_keeps_inv e hs

theorem applyEvent_cfg (e : EnvEvent) (s : State) : (applyEvent e s).cfg = s.cfg := by
  cases e with
  | send v => rcases hostSend_cases v s with h | h <;> simp only [applyEvent, h, queueInput]
  | recv => rcases hostRecv_cases s with ⟨_, h⟩ | ⟨_, _, _, h⟩ | ⟨_, _, h⟩ <;> simp only [applyEvent, h]
  | accept b => rfl

theorem act_cfg (a : Action) (s : State) : (act a s).cfg = s.cfg := by
  cases a with
  | engine =>
    obtain ⟨t, ht⟩ := step_next s
    rw [act_engine ht]
    exact step_cfg ht
  | env e => exact applyEvent_cfg e s

/-! ### States that agree in all but CAP -/

/-- The premises of O56: two states that meet the invariant, without a bound on CAP, and agree in everything else. -/
structure AlikeButCap (s t : State) : Prop where
  inv_left : s.inv = true
  inv_right : t.inv = true
  unbounded_left : s.cfg.maxCapacity = none
  unbounded_right : t.cfg.maxCapacity = none
  agree : AgreeButCap s t

variable {s t : State}

theorem AlikeButCap.firstFault_eq (h : AlikeButCap s t) : firstFault s = firstFault t :=
  agree_firstFault h.unbounded_left h.unbounded_right h.agree

theorem AlikeButCap.checks_eq (h : AlikeButCap s t) (i : Instr) : checks s i = checks t i :=
  agree_checks h.unbounded_left h.unbounded_right h.agree i

theorem agree_addrs (h : AgreeButCap s t) (i : Instr) : addrs s i = addrs t i := by
  cases i <;> simp only [addrs, agree_addr h]

/-- A store at an effective address, after the growth of the step, keeps two states alike. -/
theorem AlikeButCap.agree_grown_write (h : AlikeButCap s t) {i : Instr} {x : Nat} (hx : x ∈ addrs s i) (v : Word) :
    AgreeButCap ((grown s i).write x v) ((grown t i).write x v) := by
  obtain ⟨hs, ht, -, -, ha⟩ := h
  obtain ⟨hms, hcs, -⟩ := inv_iff.mp hs
  obtain ⟨hmt, hct, -⟩ := inv_iff.mp ht
  exact agree_store ha hms hmt (one_le_cap hcs) (one_le_cap hct) i hx (agree_addrs ha i ▸ hx) v

theorem AlikeButCap.needs_eq (h : AlikeButCap s t) {i : Instr} (hc : firstOf (checks s i) = none) :
    needsInput i s = needsInput i t ∧ needsOutput i s = needsOutput i t := by
  obtain ⟨-, -, -, -, -, hin, -, hready, -⟩ := h.agree
  have hc' : firstOf (checks t i) = none := h.checks_eq i ▸ hc
  cases i with
  | inp d => exact ⟨by rw [needsInput_inp hc, needsInput_inp hc', hin], rfl⟩
  | out a => exact ⟨rfl, by rw [needsOutput_out hc, needsOutput_out hc', hready]⟩
  | _ => exact ⟨rfl, rfl⟩

/-- The committed states of one instruction are alike. -/
theorem AlikeButCap.agree_commit (h : AlikeButCap s t) (i : Instr) : AgreeButCap (commit s i) (commit t i) := by
  have ha := h.agree
  have hg := agree_grown ha i
  obtain ⟨hread, hpc, hrb, hrun, hfault, hin, hout, hready, hexit⟩ := ha
  cases i with
  | add a b d | mul a b d | lt a b d | eq a b d =>
    simp only [commit, ← agree_val h.agree, ← agree_addr h.agree]
    exact agree_advance (h.agree_grown_write (by simp [addrs]) _) 4
  | inp d =>
    simp only [commit, ← agree_addr h.agree, ← hin]
    obtain ⟨hread', hpc', hrb', hrun', hfault', -, hrest'⟩ :=
      h.agree_grown_write (i := .inp d) (x := s.addr 0 d) (by simp [addrs]) (s.inQ.headD 0)
    refine agree_advance ?_ 2
    exact ⟨hread', hpc', hrb', hrun', hfault', rfl, hrest'⟩
  | out a =>
    simp only [commit, ← agree_addr h.agree, ← agree_operandValue h.agree, ← hout]
    refine agree_advance ?_ 2
    exact ⟨hg.1, hpc, hrb, hrun, hfault, hin, rfl, hready, hexit⟩
  | jt c g | jf c g =>
    simp only [commit, ← agree_val h.agree, ← agree_addr h.agree, ← agree_operandValue h.agree]
    split
    · exact ⟨hg.1, rfl, hrb, hrun, hfault, hin, hout, hready, hexit⟩
    · exact agree_advance hg 3
  | arb a =>
    simp only [commit, ← agree_val h.agree, ← hrb]
    refine agree_advance ?_ 2
    exact ⟨hg.1, hpc, rfl, hrun, hfault, hin, hout, hready, hexit⟩
  | hlt =>
    refine ⟨hg.1, hpc, hrb, rfl, hfault, hin, ?_, hready, hexit⟩
    exact congrArg (· ++ [Message.exit]) hout

/-- A step keeps two states alike: both fault alike, both wait, both commit the same instruction, or
both are at an end. -/
theorem AlikeButCap.agree_step {s' t' : State} (h : AlikeButCap s t) (hs : step s = .next s')
    (ht : step t = .next t') : AgreeButCap s' t' := by
  have ha := h.agree
  have hrun : s.run = t.run := ha.2.2.2.1
  by_cases hr : s.run = .running
  · rcases step_cases hr with ⟨r, n, hf, -, he⟩ | ⟨i, hi, hf, he, hc, -, hx⟩ <;>
      rcases step_cases (hrun ▸ hr) with ⟨r', n', hf', -, he'⟩ | ⟨i', hi', hf', he', -, -, hx'⟩ <;>
      rw [← h.firstFault_eq, hf] at hf'
    · cases hf'
      cases he.symm.trans hs
      cases he'.symm.trans ht
      exact agree_faultState (agree_grow ha n n') r
    · cases hf'
    · cases hf'
    · rw [← agree_decodeAt ha, hi] at hi'
      cases hi'
      obtain ⟨hin, hout⟩ := h.needs_eq hc
      rw [← hin, ← hout] at hx'
      cases (he.trans hx).symm.trans hs
      cases (he'.trans hx').symm.trans ht
      split
      · exact ha
      · exact h.agree_commit i
  · cases (step_terminal hr).symm.trans hs
    cases (step_terminal (hrun ▸ hr)).symm.trans ht
    exact ha

theorem agree_hostSend (ha : AgreeButCap s t) (v : Word) : AgreeButCap (hostSend v s).2 (hostSend v t).2 := by
  obtain ⟨hread, hpc, hrb, hrun, hfault, hin, hout, hready, hexit⟩ := ha
  have hqueue : AgreeButCap (queueInput v s) (queueInput v t) :=
    ⟨hread, hpc, hrb, hrun, hfault, congrArg (· ++ [v]) hin, hout, hready, hexit⟩
  have hdestroyed : destroyed s = destroyed t := by simp only [destroyed, hrun, hin, hout]
  cases hr : s.run with
  | running => rwa [hostSend_of_running hr, hostSend_of_running (hrun ▸ hr)]
  | halted =>
    rw [hostSend_of_halted hr, hostSend_of_halted (hrun ▸ hr)]
    exact ⟨hread, hpc, hrb, hrun, hfault, hin, hout, hready, hexit⟩
  | faulted =>
    rw [hostSend_of_faulted hr, hostSend_of_faulted (hrun ▸ hr), ← hdestroyed]
    dsimp only
    split
    · exact ⟨hread, hpc, hrb, hrun, hfault, hin, hout, hready, hexit⟩
    · exact hqueue

theorem agree_hostRecv (ha : AgreeButCap s t) : AgreeButCap (hostRecv s).2 (hostRecv t).2 := by
  obtain ⟨hread, hpc, hrb, hrun, hfault, hin, hout, hready, hexit⟩ := ha
  unfold hostRecv
  rw [← hout]
  split
  · exact ⟨hread, hpc, hrb, hrun, hfault, hin, hout, hready, hexit⟩
  · exact ⟨hread, hpc, hrb, hrun, hfault, hin, rfl, hready, hexit⟩
  · exact ⟨hread, hpc, hrb, hrun, hfault, hin, rfl, hready, rfl⟩

theorem AlikeButCap.act (h : AlikeButCap s t) (a : Action) : AlikeButCap (act a s) (act a t) where
  inv_left := act_keeps_inv a h.inv_left
  inv_right := act_keeps_inv a h.inv_right
  unbounded_left := by rw [act_cfg, h.unbounded_left]
  unbounded_right := by rw [act_cfg, h.unbounded_right]
  agree := by
    cases a with
    | engine =>
      obtain ⟨s', hs⟩ := step_next s
      obtain ⟨t', ht⟩ := step_next t
      rw [act_engine hs, act_engine ht]
      exact h.agree_step hs ht
    | env e =>
      cases e with
      | send v => exact agree_hostSend h.agree v
      | recv => exact agree_hostRecv h.agree
      | accept b =>
        obtain ⟨hread, hpc, hrb, hrun, hfault, hin, hout, -, hexit⟩ := h.agree
        exact ⟨hread, hpc, hrb, hrun, hfault, hin, hout, rfl, hexit⟩

theorem AlikeButCap.runActions (h : AlikeButCap s t) (as : List Action) :
    AlikeButCap (runActions as s) (runActions as t) := by
  induction as generalizing s t with
  | nil => exact h
  | cons a as ih => exact ih (h.act a)

/-- Settles O56, by induction on the actions: each keeps two states alike and the invariant of both. -/
theorem programNeverSeesCapacity : Obligations.ProgramNeverSeesCapacity :=
  fun _ _ as hs ht hcs hct ha => (AlikeButCap.runActions ⟨hs, ht, hcs, hct, ha⟩ as).agree

end Sys2Proof.Machine
end

section
/-! The statements about RUN, FAULT, what an instruction writes, the image and reset, each from the ends of a step. -/

namespace Sys2Proof.Machine

/-! ### RUN and FAULT -/

theorem step_run_cases {s t : State} (h : step s = .next t) :
    t.run = s.run ∨
    (s.run = .running ∧ t.run = .halted ∧ s.decodeAt = .ok .hlt) ∨
    (s.run = .running ∧ t.run = .faulted ∧ t.fault.cause ≠ .none) := by
  cases stepEnd_of_step h with
  | terminal | waits => exact .inl rfl
  | faults r n hr hf hn => exact .inr (.inr ⟨hr, rfl, (recordOk_of_firstFault hf).1⟩)
  | commits i hr hi =>
    rw [commit_run]
    split
    · next hhlt => exact .inr (.inl ⟨hr, rfl, hhlt ▸ hi⟩)
    · exact .inl rfl

/-- Settles O32: the ends of a step that change RUN are fault entry and the commit of hlt. -/
theorem runStateTransitions : Obligations.RunStateTransitions :=
  ⟨fun _ _ => step_run_cases, applyEvent_run⟩

theorem image_eq_none {s : State} (h : s.run ≠ .halted) : image s = none := by
  unfold image
  split
  · rfl
  · next hr => exact absurd hr h
  · rfl

/-- Settles O37: the record of the first failing check is one that R102 describes, and fault entry sends nothing. -/
theorem faultEntryRecord : Obligations.FaultEntryRecord := by
  intro s t hr hs ht
  obtain ⟨r, n, hf, -, rfl⟩ := step_faulted_inv hr hs ht
  obtain ⟨hcause, hpc, hword, hfetch, hshape⟩ := recordOk_of_firstFault hf
  exact ⟨hcause, hpc, hword, hfetch, hshape, image_eq_none (by rw [ht]; decide), id⟩

/-! ### What an instruction writes -/

theorem grown_read (s : State) (i : Instr) (a : Nat) : (grown s i).read a = s.read a := grow_read s _ a

/-- The address that `i` may write: that of its write operand, `x` (R60). -/
def WritesAt (s : State) (i : Instr) (x : Nat) : Prop :=
  (i.op ∈ [Op.add, .mul, .lt, .eq] ∧ ∃ d, i.operands[2]? = some d ∧ x = s.addr 2 d) ∨
  (i.op = .inp ∧ ∃ d, i.operands[0]? = some d ∧ x = s.addr 0 d)

/-- Only a store at the write operand's address changes what an address reads. -/
theorem commit_read_ne {s : State} {i : Instr} {x : Nat} (h : (commit s i).read x ≠ s.read x) : WritesAt s i x := by
  have hstore {u : State} {y : Nat} {v : Word} (hu : u.read x = s.read x) (hne : (u.write y v).read x ≠ s.read x) :
      x = y := by
    by_contra hxy
    exact hne ((write_read_of_ne hxy).trans hu)
  cases i with
  | add a b d | mul a b d | lt a b d | eq a b d =>
    exact .inl ⟨by simp [Instr.op], d, rfl, hstore (grown_read s _ x) h⟩
  | inp d => exact .inr ⟨rfl, d, rfl, hstore (grown_read s (.inp d) x) h⟩
  | jt c g | jf c g =>
    simp only [commit] at h
    split at h <;> exact absurd (grown_read s _ x) h
  | out a | arb a | hlt => exact absurd (grown_read s _ x) h

/-- Settles O33: fault entry and a wait write nothing, and the committed state writes what its instruction does. -/
theorem whichInstructionWritesWhat : Obligations.WhichInstructionWritesWhat := by
  intro i s t h
  rcases exec_cases i s with ⟨r, n, -, -, he⟩ | ⟨-, -, he⟩ <;> rw [he] at h <;> cases h
  · exact ⟨fun hrb => absurd rfl hrb, fun x hx => absurd (grow_read s n x) hx, fun _ => rfl⟩
  · split
    · exact ⟨fun hrb => absurd rfl hrb, fun x hx => absurd rfl hx, fun _ => rfl⟩
    · refine ⟨fun hrb => ?_, fun x hx => commit_read_ne hx, ?_⟩
      · by_contra harb
        exact hrb (commit_rb harb)
      · rintro rfl
        rfl

/-! ### The image and reset -/

/-- Settles O46: the image lists what the addresses below CAP read, when RUN is Halted. -/
theorem imageExactlyAtHalt : Obligations.ImageExactlyAtHalt := by
  intro s
  refine ⟨image_eq_none, fun hr => ⟨(List.range s.cap).map s.read, ?_, ?_, fun a ha => ?_⟩⟩
  · rw [image, hr]
  · rw [List.length_map, List.length_range]
  · rw [List.getElem?_map, List.getElem?_range ha, Option.map_some]

theorem reset_read (a : Nat) : State.reset.read a = 0 := by
  unfold State.read
  split <;> rfl

/-- Settles O47: the load of one word 0 lists no cell, so every address reads 0. -/
theorem resetIsLoadOfOneZeroWord : Obligations.ResetIsLoadOfOneZeroWord :=
  ⟨rfl, reset_read, rfl, rfl, rfl, rfl, rfl, rfl, rfl, rfl⟩

/-- Settles O54, by evaluation: the reset state is one literal. -/
theorem invariantAtReset : Obligations.InvariantAtReset := by
  rw [Obligations.InvariantAtReset, inv_iff]
  exact ⟨reset_memOk, rfl, rfl, rfl, rfl⟩

end Sys2Proof.Machine
end

section
/-! When a step waits at a port, and that a value which the host sends around a step leaves the same state. -/

namespace Sys2Proof.Machine

/-! ### Waiting at a port -/

theorem needsInput_iff {i : Instr} {s : State} : needsInput i s = true ↔
    ∃ d, i = .inp d ∧ firstOf (checks s (.inp d)) = none ∧ s.inQ = [] := by
  constructor
  · intro h
    cases i with
    | inp d =>
      rcases phasesW_follows d s with ⟨hc, -, -⟩ | ⟨r, n, -, -, hp⟩
      · rw [needsInput_inp hc, List.isEmpty_iff] at h
        exact ⟨d, rfl, hc, h⟩
      · rw [needsInput, hp] at h
        cases h
    | _ => cases h
  · rintro ⟨d, rfl, hc, hq⟩
    rw [needsInput_inp hc, hq, List.isEmpty_nil]

theorem needsOutput_iff {i : Instr} {s : State} : needsOutput i s = true ↔
    ∃ a, i = .out a ∧ firstOf (checks s (.out a)) = none ∧ s.outReady = false := by
  constructor
  · intro h
    cases i with
    | out a =>
      rcases phasesR_follows a s with ⟨hl, -, -⟩ | ⟨r, n, -, -, hp⟩
      · have hc : firstOf (checks s (.out a)) = none := by
          rwa [checks, writeFaults, executeFaults, List.append_nil]
        rw [needsOutput_out hc, Bool.not_eq_true'] at h
        exact ⟨a, rfl, hc, h⟩
      · rw [needsOutput, hp] at h
        cases h
    | _ => cases h
  · rintro ⟨a, rfl, hc, hready⟩
    rw [needsOutput_out hc, hready, Bool.not_false]

theorem fetch_ok_iff {i : Instr} {s : State} :
    (∃ t, fetch s = .ok i t) ↔ s.fetchOk = true ∧ s.decodeAt = .ok i := by
  constructor
  · rintro ⟨t, h⟩
    rcases fetch_cases s with ⟨r, n, -, -, hs⟩ | ⟨i', hd, hf, hs⟩ <;> rw [hs] at h <;> cases h
    exact ⟨hf, hd⟩
  · rintro ⟨hf, hd⟩
    rcases checkFetch_follows s with ⟨-, -, hp⟩ | ⟨r, n, hl, -, -⟩
    · exact ⟨_, by rw [fetch, hp, Phase.bind, grow_decodeAt, hd]⟩
    · rw [firstOf_fetchFaults.mpr hf] at hl
      cases hl

theorem atInstr_iff {test : Instr → State → Bool} {s : State} : atInstr test s = true ↔
    s.run = .running ∧ s.fetchOk = true ∧ ∃ i, s.decodeAt = .ok i ∧ test i s = true := by
  cases hr : s.run with
  | running =>
    have hat {i : Instr} {t : State} (hp : fetch s = .ok i t) : atInstr test s = test i s := by
      rw [atInstr, hr, hp]
    constructor
    · intro h
      cases hp : fetch s with
      | ok i t =>
        obtain ⟨hf, hd⟩ := fetch_ok_iff.mp ⟨t, hp⟩
        exact ⟨rfl, hf, i, hd, hat hp ▸ h⟩
      | stopped t =>
        rw [atInstr, hr, hp] at h
        cases h
    · rintro ⟨-, hf, i, hd, ht⟩
      obtain ⟨t, hp⟩ := fetch_ok_iff.mpr ⟨hf, hd⟩
      rw [hat hp, ht]
  | halted | faulted => simp [atInstr, hr]

/-- A test of a port instruction `port o` at PC, whose checks are the fetch's and its one operand's (R23). -/
theorem atInstr_port_iff {test : Instr → State → Bool} {port : Operand → Instr} {s : State} {blocked : Prop}
    (htest : ∀ i, test i s = true ↔ ∃ o, i = port o ∧ firstOf (checks s (port o)) = none ∧ blocked)
    (hport : ∀ o, executeFaults s (port o) = operandFaults s 0 o) :
    atInstr test s = true ↔ s.run = .running ∧ s.fetchOk = true ∧
      ∃ o, s.decodeAt = .ok (port o) ∧ s.operandOk 0 o = true ∧ blocked := by
  have hchecks {o : Operand} (hd : s.decodeAt = .ok (port o)) :
      firstOf (checks s (port o)) = none ↔ s.fetchOk = true ∧ s.operandOk 0 o = true := by
    rw [checks, writeFaults_of_wellFormed (wellFormed_of_decodeAt hd), List.append_nil, hport, firstOf_append_eq_none,
      firstOf_fetchFaults, firstOf_operandFaults]
  rw [atInstr_iff]
  refine and_congr_right fun _ => and_congr_right fun hf => ?_
  constructor
  · rintro ⟨i, hd, ht⟩
    obtain ⟨o, rfl, hc, hb⟩ := (htest i).mp ht
    exact ⟨o, hd, ((hchecks hd).mp hc).2, hb⟩
  · rintro ⟨o, hd, ho, hb⟩
    exact ⟨port o, hd, (htest _).mpr ⟨o, rfl, (hchecks hd).mpr ⟨hf, ho⟩, hb⟩⟩

/-- The step of an instruction that waits at a port leaves the state (R81). -/
theorem step_of_needs {s : State} {i : Instr} (hr : s.run = .running) (hf : s.fetchOk = true)
    (hd : s.decodeAt = .ok i) (hw : (needsInput i s || needsOutput i s) = true) : step s = .next s := by
  have hc : firstOf (checks s i) = none := by
    rcases Bool.or_eq_true_iff.mp hw with h | h
    · obtain ⟨d, rfl, hc, -⟩ := needsInput_iff.mp h
      exact hc
    · obtain ⟨a, rfl, hc, -⟩ := needsOutput_iff.mp h
      exact hc
  obtain ⟨t, hp⟩ := fetch_ok_iff.mpr ⟨hf, hd⟩
  obtain ⟨-, -, he⟩ := exec_completes hc
  rw [if_pos hw] at he
  rw [step, hr, hp]
  exact he

theorem step_of_not_enabled {s : State} (h : enabled s = false) : step s = .next s := by
  by_cases hr : s.run = .running
  · have hw : waitingInput s = true ∨ waitingOutput s = true := by
      by_contra hn
      simp only [not_or, Bool.not_eq_true] at hn
      simp [enabled, hr, hn] at h
    rcases hw with hw | hw
    · obtain ⟨-, hf, i, hd, hi⟩ := atInstr_iff.mp hw
      exact step_of_needs hr hf hd (by rw [hi, Bool.true_or])
    · obtain ⟨-, hf, i, hd, hi⟩ := atInstr_iff.mp hw
      exact step_of_needs hr hf hd (by rw [hi, Bool.or_true])
  · exact step_terminal hr

/-- Settles O41: the tests of R23 are the checks of phases F and A and the port's own condition. -/
theorem waitingIsExactAndChangesNothing : Obligations.WaitingIsExactAndChangesNothing :=
  fun _ => ⟨atInstr_port_iff (fun _ => needsInput_iff) fun _ => rfl,
    atInstr_port_iff (fun _ => needsOutput_iff) fun _ => rfl, step_of_not_enabled⟩

/-! ### One more input value, queued before or after a step -/

/-- An outcome with one more input value queued. -/
def queueOutcome (v : Word) : Host.Outcome State Fault Refusal → Host.Outcome State Fault Refusal
  | .next t => .next (queueInput v t)
  | .fault r => .fault r
  | .refused r => .refused r

theorem queueInput_arithmetic (v : Word) (f : Int → Int → Int) (a b d : Operand) (s : State) :
    arithmetic f a b d (queueInput v s) = queueOutcome v (arithmetic f a b d s) := by
  unfold arithmetic
  rw [queueInput_phasesRRW]
  cases phasesRRW a b d s with
  | stopped t => rfl
  | ok p t =>
    simp only [Phase.queue, show (queueInput v t).operandValue = t.operandValue from rfl]
    split <;> rfl

theorem queueInput_comparison (v : Word) (test : Word → Word → Bool) (a b d : Operand) (s : State) :
    comparison test a b d (queueInput v s) = queueOutcome v (comparison test a b d s) := by
  unfold comparison
  rw [queueInput_phasesRRW]
  cases phasesRRW a b d s <;> rfl

theorem queueInput_branch (v : Word) (taken : Word → Bool) (c g : Operand) (s : State) :
    branch taken c g (queueInput v s) = queueOutcome v (branch taken c g s) := by
  unfold branch
  rw [queueInput_phasesRR]
  cases phasesRR c g s with
  | stopped t => rfl
  | ok p t =>
    simp only [Phase.queue, show (queueInput v t).operandValue = t.operandValue from rfl]
    split <;> rfl

/-- `in` takes the oldest value, so a value queued behind it is still there after the step. -/
theorem queueInput_execInp (v : Word) (d : Operand) (s : State) (h : needsInput (.inp d) s = false) :
    execInp d (queueInput v s) = queueOutcome v (execInp d s) := by
  unfold execInp
  rw [queueInput_phasesW]
  rcases phasesW_follows d s with ⟨hc, -, hp⟩ | ⟨r, n, -, -, hp⟩ <;> rw [hp]
  · rw [needsInput_inp hc] at h
    cases hq : s.inQ with
    | nil => simp [hq] at h
    | cons x q => simp [Phase.queue, portRead, queueInput, hq, queueOutcome, State.write, advance]
  · rfl

theorem queueInput_execOut (v : Word) (a : Operand) (s : State) :
    execOut a (queueInput v s) = queueOutcome v (execOut a s) := by
  unfold execOut
  rw [queueInput_phasesR]
  cases phasesR a s with
  | stopped t => rfl
  | ok x t =>
    simp only [Phase.queue, portWrite, show (queueInput v t).outReady = t.outReady from rfl]
    cases t.outReady <;> rfl

theorem queueInput_execArb (v : Word) (a : Operand) (s : State) :
    execArb a (queueInput v s) = queueOutcome v (execArb a s) := by
  unfold execArb
  rw [queueInput_phasesR]
  cases phasesR a s with
  | stopped t => rfl
  | ok x t =>
    simp only [Phase.queue, show (queueInput v t).operandValue = t.operandValue from rfl,
      show (queueInput v t).rb = t.rb from rfl]
    split <;> rfl

theorem queueInput_execHlt (v : Word) (s : State) : execHlt (queueInput v s) = queueOutcome v (execHlt s) := by
  unfold execHlt
  rw [queueInput_checkFetch]
  cases checkFetch s <;> rfl

theorem queueInput_exec (v : Word) (i : Instr) (s : State) (h : needsInput i s = false) :
    exec i (queueInput v s) = queueOutcome v (exec i s) := by
  cases i with
  | add a b d | mul a b d => exact queueInput_arithmetic v _ a b d s
  | inp d => exact queueInput_execInp v d s h
  | out a => exact queueInput_execOut v a s
  | jt c g => exact queueInput_branch v isTrue c g s
  | jf c g => exact queueInput_branch v (fun x => !isTrue x) c g s
  | lt a b d | eq a b d => exact queueInput_comparison v _ a b d s
  | arb a => exact queueInput_execArb v a s
  | hlt => exact queueInput_execHlt v s

/-- A step that does not wait for input computes the same with one more value queued behind the others. -/
theorem queueInput_step {s t : State} (v : Word) (hr : s.run = .running) (hw : waitingInput s = false)
    (h : step s = .next t) : step (queueInput v s) = .next (queueInput v t) := by
  rw [waitingInput, atInstr, hr] at hw
  rw [step, hr] at h
  rw [step, show (queueInput v s).run = .running from hr, queueInput_fetch]
  cases hp : fetch s with
  | stopped u =>
    rw [hp] at h
    cases h
    rfl
  | ok i u =>
    rw [hp] at h hw
    exact (queueInput_exec v i s hw).trans (congrArg (queueOutcome v) h)

theorem send_of_running {s : State} (hr : s.run = .running) (v : Word) :
    applyEvent (.send v) s = queueInput v s := by
  rw [applyEvent, hostSend_of_running hr]

/-- A send after the step that ended the worker: discarded after a halt, else queued unless the worker is destroyed. -/
theorem send_of_not_running {s : State} (hr : s.run ≠ .running) (v : Word) :
    applyEvent (.send v) s = if s.run = .halted ∨ destroyed s = true then s else queueInput v s := by
  cases hs : s.run with
  | running => exact absurd hs hr
  | halted => rw [applyEvent, hostSend_of_halted hs, if_pos (.inl rfl)]
  | faulted =>
    rw [applyEvent, hostSend_of_faulted hs]
    simp

/-- A step that ends a worker was not waiting: a wait leaves the state. -/
theorem not_waitingInput_of_step_ends {s t : State} (h : step s = .next t) (hr : s.run = .running)
    (ht : t.run ≠ .running) : waitingInput s = false := by
  by_contra hw
  rw [Bool.not_eq_false] at hw
  have hs := step_of_not_enabled (s := s) (by simp [enabled, hw])
  cases hs.symm.trans h
  exact ht hr

/-- Settles O57: a running worker queues the value at once, and no check, operand or port read of the step meets it. -/
theorem lateInputLeavesTheSameState : Obligations.LateInputLeavesTheSameState := by
  refine ⟨fun s t v hw h hrun => ?_, fun s t v h hr ht => ⟨?_, send_of_not_running ht v⟩⟩
  · by_cases hr : s.run = .running
    · rw [send_of_running hr, send_of_running (hrun.trans hr)]
      exact queueInput_step v hr hw h
    · cases (step_terminal hr).symm.trans h
      exact step_terminal (by rwa [applyEvent_run])
  · rw [send_of_running hr]
    exact queueInput_step v hr (not_waitingInput_of_step_ends h hr ht) h

end Sys2Proof.Machine
end

section
/-! The statements about the memory controller: a write, growth and its bound, and the fetch after a store. -/

namespace Sys2Proof.Machine

/-! ### A write -/

/-- Settles O14: the laws of a write at an address that memory has. -/
theorem memWriteThenRead : Obligations.MemWriteThenRead := by
  intro s a v hm ha
  have hwf : Memory.wf s.mem = true := (Bool.and_eq_true_iff.mp hm).1
  exact ⟨write_read_self hwf ha, fun _ hb => write_read_of_ne hb, memOk_write hm ha⟩

/-! ### EnsureCapacity -/

theorem fits_iff {s : State} {n : Nat} :
    s.fits n = true ↔ ∀ m, s.cfg.maxCapacity = some m → growTo s.cap n ≤ m := by
  unfold State.fits
  cases s.cfg.maxCapacity <;> simp

theorem ensureCapacity_of_not_fits {s : State} {n : Nat} (h : s.fits n ≠ true) : ensureCapacity n s = none :=
  if_neg h

/-- Growth that does not fit is refused with the address in the record, before anything has changed (R36). -/
theorem checkReach_of_not_fits {s : State} {n : Nat} (h : s.fits n ≠ true) (w : Option Word) (p : FaultParam) :
    checkReach w p n n s = .stopped (faultState (recordAt s .capacityExhausted w (some p) (some (n : Int))) s) := by
  rw [checkReach, if_neg (Int.natCast_nonneg n).not_gt, Int.toNat_natCast, ensureCapacity_of_not_fits h]
  rfl

theorem grow_get_of_lt_cap {s : State} (n : Nat) {a : Nat} (h : a < s.cap) :
    Memory.get (s.grow n).mem a = Memory.get s.mem a := by
  rw [grow_mem, Memory.get_zeroFill, if_neg (by omega)]

theorem grow_get_new {s : State} {n a : Nat} (h : s.cap ≤ a) (h' : a < growTo s.cap n) :
    Memory.get (s.grow n).mem a = 0 := by
  rw [grow_mem, Memory.get_zeroFill, if_pos ⟨h, h'⟩]

/-- Settles O12: `growTo` is the least doubling above the address, and EnsureCapacity grows to it or is refused. -/
theorem ensureCapacityDoublesLeast : Obligations.EnsureCapacityDoublesLeast := by
  intro s n hc
  obtain ⟨k, hk, hn, hleast⟩ := growTo_spec hc n
  refine ⟨k, hn, hleast, ?_⟩
  rw [← hk]
  constructor
  · intro hfits
    exact ⟨s.grow n, ensureCapacity_eq_some_iff.mpr ⟨fits_iff.mpr hfits, rfl⟩, rfl,
      fun _ => grow_get_of_lt_cap n, fun _ => grow_get_new, ⟨rfl, rfl⟩, ⟨rfl, rfl, rfl, rfl⟩, rfl, rfl, rfl⟩
  · intro m hm hlt
    have hno : s.fits n ≠ true := fun h => absurd (fits_iff.mp h m hm) (by omega)
    exact ⟨ensureCapacity_of_not_fits hno, checkReach_of_not_fits hno⟩

/-! ### CAP over a step -/

/-- Whatever the end of a step, CAP is that of one growth that fits, or of none. -/
theorem step_cap {s t : State} (h : step s = .next t) : ∃ n, Reaches s n ∧ t.cap = growTo s.cap n := by
  cases stepEnd_of_step h with
  | terminal | waits => exact ⟨0, .inl rfl, congrArg State.cap (grow_zero s).symm⟩
  | faults r n _ _ hn => exact ⟨n, hn, rfl⟩
  | commits i _ _ _ hn => exact ⟨_, hn, commit_cap s i⟩

theorem applyEvent_cap (e : EnvEvent) (s : State) : (applyEvent e s).cap = s.cap := by
  cases e with
  | send v => rcases hostSend_cases v s with h | h <;> simp only [applyEvent, h, queueInput]
  | recv => rcases hostRecv_cases s with ⟨_, h⟩ | ⟨_, _, _, h⟩ | ⟨_, _, h⟩ <;> simp only [applyEvent, h]
  | accept b => rfl

/-- Settles O13: a step's growth is a doubling that MAX_CAPACITY allows, and the environment makes none. -/
theorem capacityOnlyGrows : Obligations.CapacityOnlyGrows := by
  refine ⟨fun s t hc h => ?_, applyEvent_cap⟩
  obtain ⟨n, hn, hcap⟩ := step_cap h
  rw [hcap]
  exact ⟨growTo_pow s.cap n, fun _ => hn.cap hc⟩

/-! ### A store and the fetch after it -/

/-- What a program reads depends on MEM and CAP alone (R34). -/
theorem read_congr {s t : State} (hmem : s.mem = t.mem) (hcap : s.cap = t.cap) (a : Nat) : s.read a = t.read a := by
  rw [State.read, State.read, hmem, hcap]

theorem addr_mem_addrs {s : State} {i : Instr} {j : Fin 3} {d : Operand} (hj : i.op.writeIndex = some j)
    (hd : i.writeOperand = some d) : s.addr j d ∈ addrs s i := by
  cases i <;> cases hj <;> cases hd <;> simp [addrs]

/-- Phases A and X of a storing instruction raise no fault when its operands pass and its value is in i64 (R105). -/
theorem firstOf_executeFaults_of_storedValue {s : State} {i : Instr} {v : Int} (hv : s.storedValue i = some v)
    (hrange : inI64 v = true)
    (hops : ∀ (k : Fin 3) (o : Operand), i.operands[k.val]? = some o → s.operandOk k o = true) :
    firstOf (executeFaults s i) = none := by
  cases i with
  | add a b d | mul a b d =>
    cases hv
    rw [executeFaults, operandFaults_three (hops 0 a rfl) (hops 1 b rfl) (hops 2 d rfl),
      overflowFault_eq_none.mpr hrange]
    rfl
  | lt a b d | eq a b d =>
    have h := operandFaults_three (l := []) (hops 0 a rfl) (hops 1 b rfl) (hops 2 d rfl)
    rwa [List.append_nil] at h
  | inp d => exact firstOf_operandFaults.mpr (hops 0 d rfl)
  | out | jt | jf | arb | hlt => cases hv

/-- An instruction that has a value to store does not wait at a port (R89). -/
theorem not_needs_of_storedValue {s : State} {i : Instr} {v : Int} (hc : firstOf (checks s i) = none)
    (hv : s.storedValue i = some v) : (needsInput i s || needsOutput i s) = false := by
  cases i with
  | inp d =>
    rw [needsInput_inp hc]
    cases hq : s.inQ with
    | nil => simp [State.storedValue, hq] at hv
    | cons x q => rfl
  | add | mul | lt | eq => rfl
  | out | jt | jf | arb | hlt => cases hv

theorem exec_of_storedValue {s : State} {i : Instr} {v : Int} (hw : i.wellFormed = true) (hf : s.fetchOk = true)
    (hops : ∀ (k : Fin 3) (o : Operand), i.operands[k.val]? = some o → s.operandOk k o = true)
    (hv : s.storedValue i = some v) (hrange : inI64 v = true) : exec i s = .next (commit s i) := by
  have hc := checks_none hw hf (firstOf_executeFaults_of_storedValue hv hrange hops)
  obtain ⟨-, -, he⟩ := exec_completes hc
  rw [he, not_needs_of_storedValue hc hv]
  rfl

/-- The whole memory after a store: the stored value at the write address, the old words elsewhere (R39, R77). -/
theorem commit_read_of_storedValue {s : State} {i : Instr} {j : Fin 3} {d : Operand} {v : Int}
    (hm : s.memOk = true) (hc : 1 ≤ s.cap) (hj : i.op.writeIndex = some j) (hd : i.writeOperand = some d)
    (hv : s.storedValue i = some v) (x : Nat) :
    (commit s i).read x = if x = s.addr j d then BitVec.ofInt 64 v else s.read x := by
  obtain ⟨-, hmem⟩ := commit_of_storedValue hj hd hv
  obtain ⟨hself, hother⟩ :=
    store_frame (v := BitVec.ofInt 64 v) hm hc (le_top_of_mem s (addr_mem_addrs hj hd))
  rw [read_congr hmem (commit_cap s i)]
  split
  · next hx => rw [hx, hself]
  · next hx => exact hother x hx

/-- Settles O60: the step commits its store, and the fetch at the new PC reads live memory. -/
theorem overwrittenInstructionIsFetched : Obligations.OverwrittenInstructionIsFetched := by
  intro i j d v s hm hc hw hf hops hj hd hv hrange
  obtain ⟨hpc, -⟩ := commit_of_storedValue hj hd hv
  have hread := commit_read_of_storedValue hm hc hj hd hv
  refine ⟨commit s i, exec_of_storedValue hw hf hops hv hrange, hpc, hread, fun hat => ?_, ?_⟩
  · have hword : (commit s i).instrWord = BitVec.ofInt 64 v := by
      rw [State.instrWord, hat]
      exact (hread _).trans (if_pos rfl)
    rw [hword, toInt_ofInt_of_inI64 hrange]
  · have hpos : 0 ≤ s.pc := of_decide_eq_true (Bool.and_eq_true_iff.mp hf).1
    have hnext : (commit s i).pc.toNat = s.pc.toNat + i.length := by rw [hpc, Int.toNat_add_nat hpos]
    rw [State.decodeAt, State.instrWord, hnext]

end Sys2Proof.Machine
end

section
/-! The statements about the decoder and the encoder: decode of encode, the words decode accepts, and what it reads of
an accepted word. -/

namespace Sys2Proof

/-! ### Lengths -/

/-- An instruction assembles to LEN[op] words (R63, R66). -/
theorem encode_length (i : Instr) : (encode i).length = i.length := by cases i <;> rfl

/-! ### The canonical word decodes to its instruction -/

/-- The header that decode reads from the canonical word of `i` (R64). -/
def Instr.header (i : Instr) : Header := ⟨i.op, i.modeAt 0, i.modeAt 1, i.modeAt 2⟩

theorem encode_head (i : Instr) : (encode i)[0]? = some (BitVec.ofNat 64 i.canonical) := rfl

theorem toInt_canonical (i : Instr) : (BitVec.ofNat 64 i.canonical : Word).toInt = i.canonical :=
  toInt_ofNat_of_le (canonical_range i).2

theorem decode_canonical {i : Instr} (hi : i.wellFormed = true) (p q r : Word) :
    decode (BitVec.ofNat 64 i.canonical) p q r = .ok (i.header.build p q r) := by
  have hd : decodeHeader (BitVec.ofNat 64 i.canonical) = .ok i.header :=
    decodeHeader_of_mod hi (by rw [toInt_canonical]; omega) (by rw [toInt_canonical, Int.toNat_natCast])
  rw [decode, hd]

/-- Settles O3: the canonical word gives back the header, and the header takes each raw parameter from its own slot;
a slot beyond the instruction's length is dropped. -/
theorem decodeOfEncodeIsIdentity : Obligations.DecodeOfEncodeIsIdentity := by
  intro i rest hi
  have hdecode : decodeList (encode i ++ rest) = .ok (i.header.build ((encode i ++ rest).getD 1 0)
      ((encode i ++ rest).getD 2 0) ((encode i ++ rest).getD 3 0)) := decode_canonical hi _ _ _
  rw [hdecode]
  cases i <;> rfl

/-! ### Digits at 10^5 and above are not consulted -/

theorem digit_mod {k : Nat} (hk : k < 5) (n : Nat) : digit k (n % 100000) = digit k n := by
  interval_cases k <;> simp only [digit] <;> omega

theorem decodeMode_mod (i : Fin 3) (n : Nat) : decodeMode i (n % 100000) = decodeMode i n := by
  rw [decodeMode, decodeMode, digit_mod (by omega)]

theorem decodeHeader_congr {w w' : Word} (hw : 0 ≤ w.toInt) (hw' : 0 ≤ w'.toInt)
    (h : w'.toInt.toNat % 100000 = w.toInt.toNat % 100000) : decodeHeader w' = decodeHeader w := by
  have hop : w'.toInt.toNat % 100 = w.toInt.toNat % 100 := by omega
  have hmode (i : Fin 3) : decodeMode i w'.toInt.toNat = decodeMode i w.toInt.toNat := by
    rw [← decodeMode_mod, h, decodeMode_mod]
  simp only [decodeHeader, if_neg hw.not_gt, if_neg hw'.not_gt, hop, hmode]

/-- Settles O2: the canonical words evaluate, and decode reads only the five low digits. -/
theorem canonicalWordsAndTheirMultiples : Obligations.CanonicalWordsAndTheirMultiples := by
  refine ⟨fun a b d => ⟨rfl, rfl, rfl, rfl, rfl, rfl, rfl, rfl, rfl, rfl⟩, ?_, ?_⟩
  · intro i w _ hw
    obtain rfl : BitVec.ofNat 64 i.canonical = w := Option.some.inj ((encode_head i).symm.trans hw)
    have := canonical_range i
    rw [toInt_canonical]
    omega
  · intro w w' hw hw' hdvd p q r
    rw [decode, decode, decodeHeader_congr hw hw' (by omega)]

/-! ### The words decode accepts -/

theorem Op.writeIndex_eq_some {o : Op} {j : Fin 3} :
    o.writeIndex = some j ↔ o.code ∈ [1, 2, 7, 8] ∧ j = 2 ∨ o.code = 3 ∧ j = 0 := by
  cases o <;> simp [Op.writeIndex, Op.code, eq_comm]

theorem Mode.digit_eq_one {m : Mode} : m.digit = 1 ↔ m = .immediate := by cases m <;> simp [Mode.digit]

/-- R61 by digits: the write operand is at index 2 for add, mul, lt, eq, and at index 0 for in. -/
theorem Header.no_immediate_write_iff (h : Header) :
    (∀ j, h.op.writeIndex = some j → h.mode j ≠ .immediate) ↔
      (h.op.code ∈ [1, 2, 7, 8] → h.c.digit ≠ 1) ∧ (h.op.code = 3 → h.a.digit ≠ 1) := by
  simp only [ne_eq, Mode.digit_eq_one, Op.writeIndex_eq_some]
  constructor
  · exact fun hj => ⟨fun h2 => hj 2 (.inl ⟨h2, rfl⟩), fun h0 => hj 0 (.inr ⟨h0, rfl⟩)⟩
  · rintro ⟨h2, h0⟩ j (⟨hop, rfl⟩ | ⟨hop, rfl⟩)
    exacts [h2 hop, h0 hop]

theorem checkWriteMode_of_no_immediate {h : Header} (hj : ∀ j, h.op.writeIndex = some j → h.mode j ≠ .immediate) :
    checkWriteMode h = .ok h := by
  unfold checkWriteMode
  split
  · rfl
  · next j hw => exact if_neg (hj j hw)

theorem decode_of_decodeHeader_ok {w : Word} {h : Header} (hd : decodeHeader w = .ok h) (p q r : Word) :
    decode w p q r = .ok (h.build p q r) := by
  rw [decode, hd]

/-- Settles O5: an accepted word has the fields of a header without an immediate write, and such fields name one. -/
theorem decodeAcceptsExactlyLegalWords : Obligations.DecodeAcceptsExactlyLegalWords := by
  intro w p q r
  constructor
  · rintro ⟨i, hi⟩
    obtain ⟨h, hh, -⟩ := decode_eq_ok hi
    obtain ⟨hw, hop, ha, hb, hc, hj⟩ := decodeHeader_eq_ok hh
    rw [← hop, ← ha, ← hb, ← hc]
    exact ⟨hw, h.op.code_mem, h.a.digit_mem, h.b.digit_mem, h.c.digit_mem, h.no_immediate_write_iff.mp hj⟩
  · rintro ⟨hw, hop, ha, hb, hc, hj⟩
    obtain ⟨op, hop⟩ := Op.exists_of_code hop
    obtain ⟨a, ha⟩ := Mode.exists_of_digit ha
    obtain ⟨b, hb⟩ := Mode.exists_of_digit hb
    obtain ⟨c, hc⟩ := Mode.exists_of_digit hc
    rw [hop, ha, hc] at hj
    have hh : decodeHeader w = .ok ⟨op, a, b, c⟩ := by
      rw [decodeHeader_of_fields hw hop ha hb hc]
      exact checkWriteMode_of_no_immediate ((Header.no_immediate_write_iff _).mpr hj)
    exact ⟨_, decode_of_decodeHeader_ok hh p q r⟩

/-! ### What decode reads of an accepted word -/

theorem decode_op_code {w p q r : Word} {i : Instr} (hd : decode w p q r = .ok i) :
    i.op.code = w.toInt.toNat % 100 := by
  obtain ⟨h, hh, rfl⟩ := decode_eq_ok hd
  obtain ⟨-, hop, -⟩ := decodeHeader_eq_ok hh
  rw [Header.build_op, hop]

/-- The parameters of a built instruction: as many of the three slots as the operation has (R52, R63). -/
theorem Header.build_operands (h : Header) (p q r : Word) :
    (h.build p q r).operands = [⟨h.a, p⟩, ⟨h.b, q⟩, ⟨h.c, r⟩].take (h.op.length - 1) := by
  unfold Header.build
  cases h.op <;> rfl

theorem Header.build_operand {h : Header} {p q r : Word} {k : Nat} {o : Operand}
    (ho : (h.build p q r).operands[k]? = some o) : [⟨h.a, p⟩, ⟨h.b, q⟩, ⟨h.c, r⟩][k]? = some o := by
  rw [Header.build_operands, List.getElem?_take] at ho
  split at ho
  · exact ho
  · cases ho

/-- Modes and slots that the operation does not use leave no trace in the instruction (R65). -/
theorem Header.build_header (h : Header) (p q r : Word) :
    (h.build p q r).header.build p q r = h.build p q r := by
  obtain ⟨op, a, b, c⟩ := h
  cases op <;> rfl

/-- Settles O6: the parameters are slots of the header's, and the canonical word rebuilds the same instruction. -/
theorem decodeReadsDigitsAndSlots : Obligations.DecodeReadsDigitsAndSlots := by
  intro w p q r i hd
  refine ⟨decode_op_code hd, ?_⟩
  have hwf := wellFormed_of_decode hd
  obtain ⟨h, hh, rfl⟩ := decode_eq_ok hd
  obtain ⟨-, -, ha, hb, hc, -⟩ := decodeHeader_eq_ok hh
  constructor
  · intro k o ho
    have hslot := Header.build_operand ho
    match k, hslot with
    | 0, rfl => exact ⟨ha, rfl⟩
    | 1, rfl => exact ⟨hb, rfl⟩
    | 2, rfl => exact ⟨hc, rfl⟩
  · intro w' hw'
    obtain rfl : BitVec.ofNat 64 (h.build p q r).canonical = w' := Option.some.inj ((encode_head _).symm.trans hw')
    rw [decode_canonical hwf, Header.build_header]

/-- Settles O4: the length is LEN[op], and decode takes the operation from the word's two low digits. -/
theorem lengthIsFixedByOperation : Obligations.LengthIsFixedByOperation := by
  refine ⟨fun _ _ _ => ⟨rfl, rfl, rfl, rfl, rfl, rfl, rfl, rfl, rfl, rfl⟩, fun w p q r i hd => ⟨encode_length i, ?_⟩⟩
  rw [← decode_op_code hd, Op.ofCode_code]

/-- Settles O1: decode evaluates on a literal word. -/
theorem sampleWordsDecode : Obligations.SampleWordsDecode := fun _ _ _ =>
  ⟨rfl, rfl, rfl, rfl, rfl, rfl, rfl, rfl, rfl, rfl, rfl, rfl, rfl⟩

/-! ### The words decode rejects, by the reason -/

theorem decode_of_decodeHeader_error {w : Word} {e : DecodeError} (hd : decodeHeader w = .error e) (p q r : Word) :
    decode w p q r = .error e := by
  rw [decode, hd]

theorem decodeHeader_of_neg {w : Word} (hw : w.toInt < 0) : decodeHeader w = .error .illegalOperation := if_pos hw

theorem decodeHeader_of_not_op {w : Word} (hw : 0 ≤ w.toInt)
    (hop : w.toInt.toNat % 100 ∉ [1, 2, 3, 4, 5, 6, 7, 8, 9, 99]) : decodeHeader w = .error .illegalOperation := by
  rw [decodeHeader, if_neg hw.not_gt, Op.ofCode_eq_none.mpr hop]

/-- With a legal operation, decode checks the mode digits in the order of their indexes, then the write operand. -/
theorem decodeHeader_of_op {w : Word} {op : Op} (hw : 0 ≤ w.toInt) (hop : w.toInt.toNat % 100 = op.code) :
    decodeHeader w = (decodeMode 0 w.toInt.toNat).bind fun a => (decodeMode 1 w.toInt.toNat).bind fun b =>
      (decodeMode 2 w.toInt.toNat).bind fun c => checkWriteMode ⟨op, a, b, c⟩ := by
  rw [decodeHeader, if_neg hw.not_gt, hop, Op.ofCode_code]
  cases decodeMode 0 w.toInt.toNat with
  | error => rfl
  | ok =>
    cases decodeMode 1 w.toInt.toNat with
    | error => rfl
    | ok => cases decodeMode 2 w.toInt.toNat <;> rfl

theorem decodeHeader_of_bad_mode {w : Word} {i : Fin 3} (hw : 0 ≤ w.toInt)
    (hop : w.toInt.toNat % 100 ∈ [1, 2, 3, 4, 5, 6, 7, 8, 9, 99]) (hi : digit (i.val + 2) w.toInt.toNat ∉ [0, 1, 2])
    (hlt : ∀ j : Fin 3, j < i → digit (j.val + 2) w.toInt.toNat ∈ [0, 1, 2]) :
    decodeHeader w = .error (.illegalMode i (digit (i.val + 2) w.toInt.toNat)) := by
  obtain ⟨op, hop⟩ := Op.exists_of_code hop
  rw [decodeHeader_of_op hw hop]
  have hbad := decodeMode_of_bad hi
  match i with
  | 0 => rw [hbad]; rfl
  | 1 =>
    obtain ⟨a, ha⟩ := decodeMode_of_good (hlt 0 (by decide))
    rw [ha, hbad]
    rfl
  | 2 =>
    obtain ⟨a, ha⟩ := decodeMode_of_good (hlt 0 (by decide))
    obtain ⟨b, hb⟩ := decodeMode_of_good (hlt 1 (by decide))
    rw [ha, hb, hbad]
    rfl

theorem decodeMode_eq_error {i : Fin 3} {n : Nat} {e : DecodeError} (h : decodeMode i n = .error e) :
    e = .illegalMode i (digit (i.val + 2) n) ∧ digit (i.val + 2) n ∉ [0, 1, 2] := by
  by_cases hd : digit (i.val + 2) n ∈ [0, 1, 2]
  · obtain ⟨m, hm⟩ := decodeMode_of_good hd
    rw [hm] at h
    cases h
  · rw [decodeMode_of_bad hd] at h
    cases h
    exact ⟨rfl, hd⟩

theorem checkWriteMode_of_immediate {h : Header} {j : Fin 3} (hj : h.op.writeIndex = some j)
    (hm : h.mode j = .immediate) : checkWriteMode h = .error (.immediateWrite j) := by
  simp only [checkWriteMode, hj]
  exact if_pos hm

theorem checkWriteMode_ne_illegalMode (h : Header) (i : Fin 3) (v : Nat) :
    checkWriteMode h ≠ .error (.illegalMode i v) := by
  unfold checkWriteMode
  split
  · exact nofun
  · split <;> exact nofun

/-- A reported mode digit is the word's own, and bad (R59). -/
theorem bad_mode_of_decodeHeader {w : Word} {i : Fin 3} {v : Nat} (hd : decodeHeader w = .error (.illegalMode i v)) :
    0 ≤ w.toInt ∧ v = digit (i.val + 2) w.toInt.toNat ∧ v ∉ [0, 1, 2] := by
  have report {k : Fin 3} (h : decodeMode k w.toInt.toNat = .error (.illegalMode i v)) :
      v = digit (i.val + 2) w.toInt.toNat ∧ v ∉ [0, 1, 2] := by
    obtain ⟨he, hbad⟩ := decodeMode_eq_error h
    cases he
    exact ⟨rfl, hbad⟩
  by_cases hw : w.toInt < 0
  · rw [decodeHeader_of_neg hw] at hd
    cases hd
  refine ⟨not_lt.mp hw, ?_⟩
  by_cases hop : w.toInt.toNat % 100 ∈ [1, 2, 3, 4, 5, 6, 7, 8, 9, 99]
  · obtain ⟨op, hop⟩ := Op.exists_of_code hop
    rw [decodeHeader_of_op (not_lt.mp hw) hop] at hd
    cases ha : decodeMode 0 w.toInt.toNat with
    | error e => rw [ha] at hd; cases hd; exact report ha
    | ok a =>
      cases hb : decodeMode 1 w.toInt.toNat with
      | error e => rw [ha, hb] at hd; cases hd; exact report hb
      | ok b =>
        cases hc : decodeMode 2 w.toInt.toNat with
        | error e => rw [ha, hb, hc] at hd; cases hd; exact report hc
        | ok c => rw [ha, hb, hc] at hd; exact absurd hd (checkWriteMode_ne_illegalMode _ i v)
  · rw [decodeHeader_of_not_op (not_lt.mp hw) hop] at hd
    cases hd

theorem decodeHeader_of_immediate_write {w : Word} {j : Fin 3} (hw : 0 ≤ w.toInt)
    (hop : w.toInt.toNat % 100 ∈ [1, 2, 7, 8] ∧ j = 2 ∨ w.toInt.toNat % 100 = 3 ∧ j = 0)
    (hmodes : ∀ k : Fin 3, digit (k.val + 2) w.toInt.toNat ∈ [0, 1, 2])
    (hj : digit (j.val + 2) w.toInt.toNat = 1) : decodeHeader w = .error (.immediateWrite j) := by
  have hcode : w.toInt.toNat % 100 ∈ [1, 2, 3, 4, 5, 6, 7, 8, 9, 99] := by
    simp only [List.mem_cons, List.not_mem_nil, or_false] at hop ⊢
    omega
  obtain ⟨op, hcode⟩ := Op.exists_of_code hcode
  obtain ⟨a, ha⟩ := Mode.exists_of_digit (hmodes 0)
  obtain ⟨b, hb⟩ := Mode.exists_of_digit (hmodes 1)
  obtain ⟨c, hc⟩ := Mode.exists_of_digit (hmodes 2)
  rw [hcode] at hop
  rw [decodeHeader_of_fields hw hcode ha hb hc]
  refine checkWriteMode_of_immediate (Op.writeIndex_eq_some.mpr hop) (Mode.digit_eq_one.mp ?_)
  rcases hop with ⟨-, rfl⟩ | ⟨-, rfl⟩
  · exact hc.symm.trans hj
  · exact ha.symm.trans hj

end Sys2Proof
end

section
/-! The statements about the faults of decode: what decode answers for a word it rejects, and the record of the step. -/

namespace Sys2Proof.Machine

/-! ### The step of a word that decode rejects -/

/-- Where the fetch's checks pass, the fault of decode is the first of R105's list. -/
theorem firstFault_of_decodeFault {s : State} {r : FaultRecord} (hf : s.fetchOk = true)
    (hd : decodeFault s = some r) : firstFault s = some r := by
  rw [firstFault, firstOf_append_none (firstOf_fetchFaults.mpr hf), hd, firstOf_some_cons]

theorem stepFaults_of_firstFault {s : State} {r : FaultRecord} (hr : s.run = .running) (h : firstFault s = some r) :
    StepFaults s r := by
  rcases step_cases hr with ⟨r', n, hf, -, hs⟩ | ⟨_, _, hf, _⟩
  · obtain rfl : r' = r := Option.some.inj (hf.symm.trans h)
    exact ⟨_, hs, rfl, rfl⟩
  · rw [h] at hf
    cases hf

/-- The step of a word that decode rejects enters the fault of the rejection. -/
theorem stepFaults_of_decodeHeader_error {s : State} {e : DecodeError} (hr : s.run = .running)
    (hf : s.fetchOk = true) (hd : decodeHeader s.instrWord = .error e) : StepFaults s (raiseDecode e s).fault := by
  have hrecord : decodeFault s = some (raiseDecode e s).fault := by
    rw [decodeFault, State.decodeAt, decode_of_decodeHeader_error hd]
    cases e <;> rfl
  exact stepFaults_of_firstFault hr (firstFault_of_decodeFault hf hrecord)

/-- Settles O7: the sign is decode's first check. -/
theorem negativeWordIsIllegal : Obligations.NegativeWordIsIllegal :=
  ⟨fun _ p q r hw => decode_of_decodeHeader_error (decodeHeader_of_neg hw) p q r,
    fun _ hr hf hw => stepFaults_of_decodeHeader_error hr hf (decodeHeader_of_neg hw)⟩

/-- Settles O8: the operation is decode's second check. -/
theorem operationOutsideTableIsIllegal : Obligations.OperationOutsideTableIsIllegal :=
  ⟨fun _ p q r hw hop => decode_of_decodeHeader_error (decodeHeader_of_not_op hw hop) p q r,
    fun _ hr hf hw hop => stepFaults_of_decodeHeader_error hr hf (decodeHeader_of_not_op hw hop)⟩

/-- Settles O9: the mode digits are checked in the order of their indexes, before the write operand. -/
theorem firstBadModeDigitIsReported : Obligations.FirstBadModeDigitIsReported :=
  ⟨fun _ p q r _ hw hop hi hlt => decode_of_decodeHeader_error (decodeHeader_of_bad_mode hw hop hi hlt) p q r,
    fun _ _ _ _ _ _ hd => bad_mode_of_decodeHeader (decode_eq_error hd),
    fun _ _ hr hf hw hop hi hlt => stepFaults_of_decodeHeader_error hr hf (decodeHeader_of_bad_mode hw hop hi hlt)⟩

/-- Settles O10: with three legal mode digits, only the check of the write operand is left. -/
theorem immediateWriteIsIllegal : Obligations.ImmediateWriteIsIllegal := by
  intro s j hr hf hw hop hmodes hj
  have hd := decodeHeader_of_immediate_write hw hop hmodes hj
  exact ⟨decode_of_decodeHeader_error hd _ _ _, stepFaults_of_decodeHeader_error hr hf hd⟩

/-! ### A term that is not well-formed -/

theorem writeFault_of_not_writable {s : State} {j : Fin 3} {o : Operand} (h : o.mode.writable = false) :
    writeFault s j o = [some (recordAt s .immediateWrite (some s.instrWord) (some (.index j)) none)] := by
  rw [writeFault, h]
  rfl

theorem writeFaults_of_not_wellFormed (s : State) {i : Instr} (h : i.wellFormed = false) :
    ∃ j, writeFaults s i = [some (recordAt s .immediateWrite (some s.instrWord) (some (.index j)) none)] := by
  cases i with
  | add | mul | lt | eq => exact ⟨2, writeFault_of_not_writable h⟩
  | inp => exact ⟨0, writeFault_of_not_writable h⟩
  | out | jt | jf | arb | hlt => cases h

/-- Settles O11: decode checks the write operand, and so does `exec`, after the fetch's checks. -/
theorem decodedIsWellFormed : Obligations.DecodedIsWellFormed := by
  refine ⟨fun _ _ _ _ _ => wellFormed_of_decode, fun i s hi hf => ?_⟩
  obtain ⟨j, hj⟩ := writeFaults_of_not_wellFormed s hi
  have hfirst : firstOf (checks s i) =
      some (recordAt s .immediateWrite (some s.instrWord) (some (.index j)) none) := by
    rw [checks, List.append_assoc, firstOf_append_none (firstOf_fetchFaults.mpr hf), hj]
    rfl
  obtain ⟨n, -, he⟩ := exec_faults hfirst
  exact ⟨_, he, rfl, rfl⟩

end Sys2Proof.Machine
end

section
/-! The statements about the cycle: what a step runs, where it leaves PC, the checks before phase X, the end states, and
an enabled step under weak fairness. -/

namespace Sys2Proof.Machine

/-! ### A step runs the instruction at PC -/

/-- Settles O30: a fetch that passes its checks hands the decoded instruction to `exec`. -/
theorem stepRunsDecodedInstruction : Obligations.StepRunsDecodedInstruction := by
  intro s i hr hf hd
  obtain ⟨t, hp⟩ := fetch_ok_iff.mpr ⟨hf, hd⟩
  rw [step, hr, hp]

/-- Settles O55: fault entry, a wait and a committed state are all next states. -/
theorem everyStepAnswersNext : Obligations.EveryStepAnswersNext :=
  ⟨step_next, exec_next⟩

/-! ### The end states -/

/-- No action changes RUN or FAULT once RUN is Halted or Faulted (R80). -/
theorem act_status_of_terminal (a : Action) {s : State} (hr : s.run ≠ .running) : status (act a s) = status s := by
  cases a with
  | engine => rw [act_engine (step_terminal hr)]
  | env e => exact congrArg₂ Prod.mk (applyEvent_run e s) (applyEvent_fault e s)

theorem runActions_status_of_terminal (as : List Action) {s : State} (hr : s.run ≠ .running) :
    status (runActions as s) = status s := by
  induction as generalizing s with
  | nil => rfl
  | cons a as ih =>
    have ha := act_status_of_terminal a hr
    exact (ih (by rwa [show (act a s).run = s.run from congrArg Prod.fst ha])).trans ha

/-- When a step is enabled (R71). -/
theorem enabled_iff {s : State} :
    enabled s = true ↔ s.run = .running ∧ waitingInput s = false ∧ waitingOutput s = false := by
  simp [enabled, and_assoc]

/-- Settles O31: every action keeps RUN and FAULT of an ended state, and only the commit of hlt ends in Halted. -/
theorem terminalStatesStayTerminal : Obligations.TerminalStatesStayTerminal := by
  constructor
  · intro s as hr
    have hstatus := runActions_status_of_terminal as hr
    have hrun : (runActions as s).run = s.run := congrArg Prod.fst hstatus
    have hend : (runActions as s).run ≠ .running := by rwa [hrun]
    exact ⟨hrun, congrArg Prod.snd hstatus, Bool.eq_false_iff.mpr fun h => hend (enabled_iff.mp h).1,
      step_terminal hend⟩
  · intro s t h ht
    rcases step_run_cases h with hrun | ⟨-, -, hd⟩ | ⟨-, hfault, -⟩
    · exact .inl (hrun.symm.trans ht)
    · exact .inr hd
    · cases ht.symm.trans hfault

/-! ### PC -/

/-- The PC update of R78: none for hlt, a taken jump's target, or the instruction's length. -/
theorem commit_pc_cases (s : State) (i : Instr) :
    (i = .hlt ∧ (commit s i).pc = s.pc) ∨
    (∃ c g, (i = .jt c g ∧ s.val 0 c ≠ 0 ∨ i = .jf c g ∧ s.val 0 c = 0) ∧ (commit s i).pc = s.val 1 g) ∨
    (commit s i).pc = s.pc + i.length := by
  rw [commit_pc]
  cases i with
  | hlt => exact .inl ⟨rfl, rfl⟩
  | jt c g =>
    by_cases hc : s.val 0 c ≠ 0
    · exact .inr (.inl ⟨c, g, .inl ⟨rfl, hc⟩, if_pos hc⟩)
    · exact .inr (.inr (if_neg hc))
  | jf c g =>
    by_cases hc : s.val 0 c = 0
    · exact .inr (.inl ⟨c, g, .inr ⟨rfl, hc⟩, if_pos hc⟩)
    · exact .inr (.inr (if_neg hc))
  | _ => exact .inr (.inr rfl)

/-- An instruction that neither faults nor waits commits. -/
theorem eq_commit_of_exec {i : Instr} {s t : State} (h : exec i s = .next t) (ht : t.run ≠ .faulted)
    (hw : (needsInput i s || needsOutput i s) = false) : t = commit s i := by
  rcases exec_cases i s with ⟨r, n, -, -, he⟩ | ⟨-, -, he⟩ <;> rw [he] at h <;> cases h
  · exact absurd rfl ht
  · rw [hw]
    rfl

/-- Settles O34: the committed state has the PC of R78. -/
theorem pcUpdateOfCompletedStep : Obligations.PcUpdateOfCompletedStep := by
  intro i s t _ h ht hin hout
  obtain rfl := eq_commit_of_exec h ht (by rw [hin, hout]; rfl)
  refine ⟨?_, ?_, ?_, fun hhlt hjt hjf => ?_⟩
  · rintro rfl
    exact commit_pc
  · rintro c g rfl hc
    exact commit_pc.trans (if_pos hc)
  · rintro c g rfl hc
    exact commit_pc.trans (if_pos hc)
  · rcases commit_pc_cases s i with ⟨hi, -⟩ | ⟨c, g, ⟨hi, hc⟩ | ⟨hi, hc⟩, -⟩ | hpc
    · exact absurd hi hhlt
    · exact absurd (hjt c g hi) hc
    · exact absurd hc (hjf c g hi)
    · exact hpc

/-- A move of the environment touches its own side alone; it empties no input channel, and only `accept false` withdraws
OUTPUT's acceptance. -/
theorem applyEvent_eq (e : EnvEvent) (s : State) : ∃ q o ready x,
    applyEvent e s = { s with inQ := q, outQ := o, outReady := ready, exited := x } ∧
    (q = [] → s.inQ = []) ∧ (e ≠ .accept false → ready = false → s.outReady = false) := by
  cases e with
  | send v =>
    rcases hostSend_cases v s with h | h <;> rw [applyEvent, h]
    · exact ⟨_, _, _, _, rfl, id, fun _ => id⟩
    · exact ⟨_, _, _, _, rfl, fun hq => (List.append_eq_nil_iff.mp hq).1, fun _ => id⟩
  | recv =>
    rcases hostRecv_cases s with ⟨_, h⟩ | ⟨_, _, _, h⟩ | ⟨_, _, h⟩ <;> rw [applyEvent, h] <;>
      exact ⟨_, _, _, _, rfl, id, fun _ => id⟩
  | accept b =>
    refine ⟨_, _, _, _, rfl, id, fun hb hready => ?_⟩
    exact absurd (congrArg EnvEvent.accept hready) hb

theorem applyEvent_pc (e : EnvEvent) (s : State) : (applyEvent e s).pc = s.pc := by
  obtain ⟨_, _, _, _, h, -⟩ := applyEvent_eq e s
  rw [h]

/-- Settles O35: of the ends of a step, the commit alone changes PC. -/
theorem takenJumpsAreTheOnlyOtherPcChange : Obligations.TakenJumpsAreTheOnlyOtherPcChange := by
  refine ⟨fun s t h hpc => ?_, applyEvent_pc⟩
  cases stepEnd_of_step h with
  | terminal | waits | faults => exact absurd rfl hpc
  | commits i _ hi =>
    rcases commit_pc_cases s i with ⟨-, hkept⟩ | ⟨c, g, htaken, htarget⟩ | hnext
    · exact absurd hkept hpc
    · refine .inr ⟨c, g, htaken.imp ?_ ?_, htarget⟩ <;> rintro ⟨rfl, hc⟩ <;> exact ⟨hi, hc⟩
    · exact .inl ⟨i, hi, hnext⟩

/-! ### The checks of the fetch -/

theorem firstFault_of_fetchFaults {s : State} {r : FaultRecord} (h : firstOf (fetchFaults s) = some r) :
    firstFault s = some r := firstOf_append_some h

theorem firstOf_fetchFaults_of_neg {s : State} (h : s.pc < 0) :
    firstOf (fetchFaults s) = some (recordAt s .negativeAddress none (some .fetch) (some s.pc)) := by
  rw [fetchFaults, if_pos h]
  rfl

theorem firstOf_fetchFaults_of_not_fits {s : State} (h : 0 ≤ s.pc) (hf : s.fits (s.pc + 3).toNat = false) :
    firstOf (fetchFaults s) = some (recordAt s .capacityExhausted none (some .fetch) (some (s.pc + 3))) := by
  rw [fetchFaults, if_neg h.not_gt, hf]
  rfl

/-- A completed step leaves CAP above the fetch span, which is part of what it touches (R41(a)). -/
theorem fetchSpan_lt_commit_cap {s : State} (hc : 1 ≤ s.cap) (i : Instr) : s.pc + 3 < (commit s i).cap := by
  have hspan := fetchSpan_le_top s (addrs s i)
  have hgrown := lt_growTo hc (s.top (addrs s i))
  rw [commit_cap]
  omega

/-- The instruction of an enabled step waits at no port. -/
theorem not_needs_of_enabled {s : State} {i : Instr} (h : enabled s = true) (hf : s.fetchOk = true)
    (hi : s.decodeAt = .ok i) : (needsInput i s || needsOutput i s) = false := by
  obtain ⟨hr, hin, hout⟩ := enabled_iff.mp h
  rw [Bool.or_eq_false_iff]
  constructor <;> refine Bool.eq_false_iff.mpr fun hw => ?_
  · exact Bool.eq_false_iff.mp hin (atInstr_iff.mpr ⟨hr, hf, i, hi, hw⟩)
  · exact Bool.eq_false_iff.mp hout (atInstr_iff.mpr ⟨hr, hf, i, hi, hw⟩)

/-- Settles O39: the fetch's checks come first, and a step that is enabled and does not fault commits. -/
theorem fetchChecksAndSpan : Obligations.FetchChecksAndSpan := by
  intro s hr hc
  refine ⟨fun hneg => ?_, fun hpos hf => ?_, fun hf he t h ht => ?_⟩
  · exact stepFaults_of_firstFault hr (firstFault_of_fetchFaults (firstOf_fetchFaults_of_neg hneg))
  · exact stepFaults_of_firstFault hr (firstFault_of_fetchFaults (firstOf_fetchFaults_of_not_fits hpos hf))
  · cases stepEnd_of_step h with
    | terminal hn => exact absurd hr hn
    | waits i _ hi _ hw => exact absurd hw (Bool.eq_false_iff.mp (not_needs_of_enabled he hf hi))
    | faults => exact absurd rfl ht
    | commits i => exact fetchSpan_lt_commit_cap hc i

/-! ### The checks of the operands -/

theorem firstOf_operandFaults_of_neg {s : State} {k : Fin 3} {o : Operand} (h : s.ea k o < 0) :
    firstOf (operandFaults s k o) =
      some (recordAt s .negativeAddress (some s.instrWord) (some (.index k)) (some (s.ea k o))) := by
  rw [operandFaults, if_pos h]
  rfl

theorem firstOf_operandFaults_of_not_fits {s : State} {k : Fin 3} {o : Operand} (h : 0 ≤ s.ea k o)
    (hf : s.fits (s.addr k o) = false) : firstOf (operandFaults s k o) =
      some (recordAt s .capacityExhausted (some s.instrWord) (some (.index k)) (some (s.ea k o))) := by
  rw [operandFaults, if_neg h.not_gt, hf]
  rfl

/-- The checks of parameter `k`, none where `i` has no such parameter (R75). -/
def parameterFaults (s : State) (i : Instr) (k : Fin 3) : List (Option FaultRecord) :=
  (i.operands[k.val]?).elim [] (operandFaults s k)

theorem parameterFaults_of_operand {s : State} {i : Instr} {k : Fin 3} {o : Operand}
    (h : i.operands[k.val]? = some o) : parameterFaults s i k = operandFaults s k o := by
  rw [parameterFaults, h, Option.elim_some]

theorem firstOf_parameterFaults {s : State} {i : Instr} {k : Fin 3}
    (h : ∀ o, i.operands[k.val]? = some o → s.operandOk k o = true) : firstOf (parameterFaults s i k) = none := by
  cases hk : i.operands[k.val]? with
  | none => rw [parameterFaults, hk]; rfl
  | some o => rw [parameterFaults_of_operand hk, firstOf_operandFaults.mpr (h o hk)]

/-- Phases A and X check the parameters in their order, and then the result (R105 items 6 and 7). -/
theorem executeFaults_eq_parameterFaults (s : State) (i : Instr) : ∃ l, executeFaults s i =
    parameterFaults s i 0 ++ (parameterFaults s i 1 ++ (parameterFaults s i 2 ++ l)) := by
  cases i with
  | add a b d =>
    exact ⟨[overflowFault s (s.val 0 a + s.val 1 b)], by simp [executeFaults, parameterFaults, Instr.operands]⟩
  | mul a b d =>
    exact ⟨[overflowFault s (s.val 0 a * s.val 1 b)], by simp [executeFaults, parameterFaults, Instr.operands]⟩
  | arb a =>
    exact ⟨[overflowFault s (s.rb.toInt + s.val 0 a)], by simp [executeFaults, parameterFaults, Instr.operands]⟩
  | _ => exact ⟨[], by simp [executeFaults, parameterFaults, Instr.operands]⟩

/-- The fault of phase A is that of the first parameter that fails its checks. -/
theorem firstOf_executeFaults_of_operand {s : State} {i : Instr} {k : Fin 3} {o : Operand} {r : FaultRecord}
    (hk : i.operands[k.val]? = some o)
    (hbefore : ∀ (j : Fin 3) (o' : Operand), j < k → i.operands[j.val]? = some o' → s.operandOk j o' = true)
    (hr : firstOf (operandFaults s k o) = some r) : firstOf (executeFaults s i) = some r := by
  have hpass (j : Fin 3) (hj : j < k) : firstOf (parameterFaults s i j) = none :=
    firstOf_parameterFaults fun o' => hbefore j o' hj
  rw [← parameterFaults_of_operand hk] at hr
  obtain ⟨l, hl⟩ := executeFaults_eq_parameterFaults s i
  rw [hl]
  match k with
  | 0 => exact firstOf_append_some hr
  | 1 =>
    rw [firstOf_append_none (hpass 0 (by decide))]
    exact firstOf_append_some hr
  | 2 =>
    rw [firstOf_append_none (hpass 0 (by decide)), firstOf_append_none (hpass 1 (by decide))]
    exact firstOf_append_some hr

theorem exec_of_executeFaults {s : State} {i : Instr} {r : FaultRecord} (hw : i.wellFormed = true)
    (hf : s.fetchOk = true) (hr : firstOf (executeFaults s i) = some r) :
    ∃ t, exec i s = .next t ∧ t.run = .faulted ∧ t.fault = r := by
  have hfirst : firstOf (checks s i) = some r := by
    rwa [checks, writeFaults_of_wellFormed hw, List.append_nil, firstOf_append_none (firstOf_fetchFaults.mpr hf)]
  obtain ⟨n, -, he⟩ := exec_faults hfirst
  exact ⟨_, he, rfl, rfl⟩

theorem fits_mono {s : State} {a b : Nat} (h : a ≤ b) (hb : s.fits b = true) : s.fits a = true :=
  fits_iff.mpr fun m hm => (growTo_mono s.cap h).trans (fits_iff.mp hb m hm)

/-- An immediate operand's slot lies in the fetch span, whose checks have passed (R74, R75). -/
theorem operandOk_of_immediate {s : State} {k : Fin 3} {o : Operand} (hf : s.fetchOk = true)
    (ho : o.mode = .immediate) : s.operandOk k o = true := by
  simp only [State.fetchOk, State.operandOk, Bool.and_eq_true, decide_eq_true_eq] at hf ⊢
  have hslot : s.ea k o = s.pc + 1 + (k.val : Int) := by rw [State.ea, ho]
  have hk : k.val ≤ 2 := Nat.lt_succ_iff.mp k.isLt
  rw [hslot]
  exact ⟨by omega, fits_mono (by omega) hf.2⟩

/-- Settles O40: the first failing check of a parameter is the fault, and an immediate operand fails none. -/
theorem operandAddressChecks : Obligations.OperandAddressChecks := by
  intro i s k o hw hf hk hbefore
  have hfault {r : FaultRecord} (hr : firstOf (operandFaults s k o) = some r) :=
    exec_of_executeFaults hw hf (firstOf_executeFaults_of_operand hk hbefore hr)
  exact ⟨fun hneg => hfault (firstOf_operandFaults_of_neg hneg),
    fun hpos hno => hfault (firstOf_operandFaults_of_not_fits hpos hno), operandOk_of_immediate hf⟩

/-! ### An enabled step under weak fairness -/

/-- A wait at a port after a move of the environment was there before it. -/
theorem applyEvent_keeps_enabled {e : EnvEvent} {s : State} (h : enabled s = true) (he : e ≠ .accept false) :
    enabled (applyEvent e s) = true := by
  obtain ⟨hr, hin, hout⟩ := enabled_iff.mp h
  obtain ⟨q, o, ready, x, hs, hq, hready⟩ := applyEvent_eq e s
  obtain ⟨hinput, houtput, -⟩ := waitingIsExactAndChangesNothing s
  obtain ⟨hinput', houtput', -⟩ := waitingIsExactAndChangesNothing (applyEvent e s)
  rw [hs] at hinput' houtput' ⊢
  refine enabled_iff.mpr ⟨hr, Bool.eq_false_iff.mpr fun hw => ?_, Bool.eq_false_iff.mpr fun hw => ?_⟩
  · obtain ⟨-, hf, d, hd, ho, hempty⟩ := hinput'.mp hw
    exact Bool.eq_false_iff.mp hin (hinput.mpr ⟨hr, hf, d, hd, ho, hq hempty⟩)
  · obtain ⟨-, hf, a, hd, ho, hno⟩ := houtput'.mp hw
    exact Bool.eq_false_iff.mp hout (houtput.mpr ⟨hr, hf, a, hd, ho, hready he hno⟩)

/-- Along a schedule that never withdraws acceptance, an enabled step stays enabled until the engine moves. -/
theorem trace_keeps_enabled {sched : Nat → Action} {s : State} {n : Nat}
    (haccept : ∀ n, sched n ≠ .env (.accept false)) (h : enabled (trace sched s n) = true)
    (hne : sched n ≠ .engine) : enabled (trace sched s (n + 1)) = true := by
  rw [trace]
  cases ha : sched n with
  | engine => exact absurd ha hne
  | env e =>
    refine applyEvent_keeps_enabled h fun he => haccept n ?_
    rw [ha, he]

/-- Settles O59: were the enabled step never taken, it would stay enabled for ever, which no weakly fair schedule
allows. -/
theorem enabledStepIsEventuallyTaken : Obligations.EnabledStepIsEventuallyTaken := by
  refine ⟨fun _ _ => applyEvent_keeps_enabled, fun sched s hfair haccept n hn => ?_⟩
  by_contra hnever
  have hidle (m : Nat) (hm : n ≤ m) (he : enabled (trace sched s m) = true) : sched m ≠ .engine :=
    fun ha => hnever ⟨m, hm, he, ha⟩
  have hforever (m : Nat) (hm : n ≤ m) : enabled (trace sched s m) = true := by
    induction m, hm using Nat.le_induction with
    | base => exact hn
    | succ m hm ih => exact trace_keeps_enabled haccept ih (hidle m hm ih)
  obtain ⟨m, hm, hdisabled | hengine⟩ := hfair n
  · exact Bool.eq_false_iff.mp hdisabled (hforever m hm)
  · exact hidle m hm (hforever m hm) hengine

end Sys2Proof.Machine
end

section
/-! The statements about add and mul: both are `arithmetic` of an exact integer function, which stores its result or, for
one outside i64, enters ARITHMETIC_OVERFLOW. -/

namespace Sys2Proof.Machine

/-! ### A store that ends a step -/

/-- Phase X of an instruction that stores `v` at an address the step touches: the store, the PC update, CAP's growth, and
nothing else (R77, R78, R82). -/
theorem store_advance_frame {s t : State} {n x len : Nat} {v : Word} (hm : s.memOk = true) (hc : 1 ≤ s.cap) (hx : x ≤ n)
    (ht : t = advance len ((s.grow n).write x v)) :
    t.read x = v ∧ KeepsMemoryBut x s t ∧ t.pc = s.pc + len ∧ t.rb = s.rb ∧ KeepsStatus s t ∧ KeepsChannels s t ∧
      GrowsTo n s t := by
  subst ht
  obtain ⟨hself, hother⟩ := store_frame (v := v) hm hc hx
  exact ⟨hself, hother, rfl, rfl, ⟨rfl, rfl⟩, ⟨rfl, rfl, rfl, rfl⟩, rfl, rfl⟩

/-- The write address is among the addresses that the growth of a three-operand step covers. -/
theorem addr_dst_le_top (s : State) (a b d : Operand) :
    s.addr 2 d ≤ s.top [s.addr 0 a, s.addr 1 b, s.addr 2 d] :=
  le_top_of_mem s (by simp)

/-! ### Phase X of add and mul, once the checks of phases F and A pass -/

section

variable (f : Int → Int → Int) {a b d : Operand} {s : State} (hw : d.mode.writable = true) (hf : s.fetchOk = true)
  (ha : s.operandOk 0 a = true) (hb : s.operandOk 1 b = true) (hd : s.operandOk 2 d = true)

include hw hf ha hb hd

theorem arithmetic_of_inI64 (hr : inI64 (f (s.val 0 a) (s.val 1 b)) = true) :
    arithmetic f a b d s = .next (advance 4 ((s.grow (s.top [s.addr 0 a, s.addr 1 b, s.addr 2 d])).write (s.addr 2 d)
      (BitVec.ofInt 64 (f (s.val 0 a) (s.val 1 b))))) := by
  simp only [State.val] at hr
  simp only [arithmetic, phasesRRW_ok hw hf ha hb hd, grow_operandValue, toWord?_of_inI64 hr, State.val]

theorem arithmetic_of_not_inI64 (hr : inI64 (f (s.val 0 a) (s.val 1 b)) = false) :
    arithmetic f a b d s = .next (faultState
      (recordAt s .arithmeticOverflow (some s.instrWord) none (some (f (s.val 0 a) (s.val 1 b))))
      (s.grow (s.top [s.addr 0 a, s.addr 1 b, s.addr 2 d]))) := by
  simp only [State.val] at hr
  simp only [arithmetic, phasesRRW_ok hw hf ha hb hd, grow_operandValue, toWord?_of_not_inI64 hr, grow_instrWord,
    raise_eq_faultState, State.val]

/-- The exact result is stored at the write address, and the rest of the state is framed (R82, R86, R87). -/
theorem arithmetic_stores_exact (hm : s.memOk = true) (hc : 1 ≤ s.cap)
    (hr : inI64 (f (s.val 0 a) (s.val 1 b)) = true) :
    ∃ t, arithmetic f a b d s = .next t ∧
      (t.read (s.addr 2 d)).toInt = f (s.val 0 a) (s.val 1 b) ∧ KeepsMemoryBut (s.addr 2 d) s t ∧
      t.pc = s.pc + 4 ∧ t.rb = s.rb ∧ KeepsStatus s t ∧ KeepsChannels s t ∧
      GrowsTo (s.top [s.addr 0 a, s.addr 1 b, s.addr 2 d]) s t := by
  obtain ⟨hread, hframe⟩ := store_advance_frame hm hc (addr_dst_le_top s a b d) rfl
  exact ⟨_, arithmetic_of_inI64 f hw hf ha hb hd hr, by rw [hread, toInt_ofInt_of_inI64 hr], hframe⟩

/-- A result outside i64 is in the fault's record and nowhere else (R88, R103). -/
theorem arithmetic_overflow_faults (hr : inI64 (f (s.val 0 a) (s.val 1 b)) = false) :
    ∃ t, arithmetic f a b d s = .next t ∧ t.run = .faulted ∧
      t.fault = recordAt s .arithmeticOverflow (some s.instrWord) none (some (f (s.val 0 a) (s.val 1 b))) ∧
      KeepsMemory s t ∧ t.pc = s.pc ∧ t.rb = s.rb ∧ KeepsChannels s t ∧
      GrowsTo (s.top [s.addr 0 a, s.addr 1 b, s.addr 2 d]) s t :=
  ⟨_, arithmetic_of_not_inI64 f hw hf ha hb hd hr, rfl, rfl, grow_read s _, rfl, rfl, ⟨rfl, rfl, rfl, rfl⟩, rfl, rfl⟩

end

/-! ### add and mul -/

/-- Settles O15: add is `arithmetic` of the sum, which is in i64 and so is stored. -/
theorem addStoresExactSum : Obligations.AddStoresExactSum :=
  fun _ _ _ _ hm hc hw hf ha hb hd => arithmetic_stores_exact (fun x y => x + y) hw hf ha hb hd hm hc

/-- Settles O16: add is `arithmetic` of the sum, which no word holds. -/
theorem addOverflowFaults : Obligations.AddOverflowFaults :=
  fun _ _ _ _ => arithmetic_overflow_faults fun x y => x + y

/-- Settles O17: mul is `arithmetic` of the product, which is in i64 and so is stored. -/
theorem mulStoresExactProduct : Obligations.MulStoresExactProduct :=
  fun _ _ _ _ hm hc hw hf ha hb hd => arithmetic_stores_exact (fun x y => x * y) hw hf ha hb hd hm hc

/-- Settles O18: mul is `arithmetic` of the product, which no word holds. -/
theorem mulOverflowFaults : Obligations.MulOverflowFaults :=
  fun _ _ _ _ => arithmetic_overflow_faults fun x y => x * y

end Sys2Proof.Machine
end

section
/-! The statements about the ports: in and out wait or commit once their checks pass, a fault comes before either, and
what a step takes from and puts on the channels. -/

namespace Sys2Proof.Machine

/-! ### An instruction whose checks pass: wait or commit -/

section

variable {s : State} {i : Instr} (hc : firstOf (checks s i) = none)

include hc

theorem exec_of_needs (hw : (needsInput i s || needsOutput i s) = true) : exec i s = .next s := by
  obtain ⟨-, -, he⟩ := exec_completes hc
  rwa [if_pos hw] at he

theorem exec_of_not_needs (hw : (needsInput i s || needsOutput i s) = false) : exec i s = .next (commit s i) := by
  obtain ⟨-, -, he⟩ := exec_completes hc
  rwa [hw] at he

end

/-! ### A port instruction whose checks fail -/

/-- An instruction whose phase A checks the operand `o` alone faults when the fetch or `o` fails its checks. The fault
is all that happens but growth, so no channel is touched (R103, R105). -/
theorem exec_faults_of_not_ok {s : State} {i : Instr} {o : Operand} (hi : executeFaults s i = operandFaults s 0 o)
    (hbad : s.fetchOk = false ∨ s.operandOk 0 o = false) : ∃ r n, exec i s = .next (faultState r (s.grow n)) := by
  cases hc : firstOf (checks s i) with
  | some r =>
    obtain ⟨n, -, he⟩ := exec_faults hc
    exact ⟨r, n, he⟩
  | none =>
    rw [checks, hi, firstOf_append_eq_none, firstOf_append_eq_none, firstOf_fetchFaults, firstOf_operandFaults] at hc
    obtain ⟨⟨hf, -⟩, ho⟩ := hc
    simp [hf, ho] at hbad

/-! ### in -/

/-- The completed `in`: a store of the oldest input value, which leaves the channel (R89, R109). -/
theorem commit_inp {s : State} {d : Operand} {x : Word} {q : List Word} (hq : s.inQ = x :: q) :
    commit s (.inp d) =
      { advance 2 ((s.grow (s.top [s.addr 0 d])).write (s.addr 0 d) x) with inQ := q } := by
  rw [commit, hq]
  rfl

/-- Settles O21: with a value at the port `in` commits, and what it commits is a store with its frame. -/
theorem inStoresOldestInput : Obligations.InStoresOldestInput := by
  intro d s x q hm hc hw hf hd hq
  have hchecks : firstOf (checks s (.inp d)) = none := checks_none hw hf (firstOf_operandFaults.mpr hd)
  have hready : (needsInput (.inp d) s || needsOutput (.inp d) s) = false := by
    rw [needsInput_inp hchecks, hq]
    rfl
  obtain ⟨hread, hother, hpc, hrb, hstatus, ⟨-, hout, hacc, hex⟩, hgrow⟩ :=
    store_advance_frame (v := x) (len := 2) hm hc (le_top_of_mem s (List.mem_singleton_self (s.addr 0 d))) rfl
  refine ⟨_, exec_of_not_needs hchecks hready, ?_⟩
  rw [commit_inp hq]
  exact ⟨rfl, hread, hother, hpc, hrb, hstatus, hout, hacc, hex, hgrow⟩

/-- Settles O22: `in` reaches the port only when its checks pass, and fault entry leaves the channel. -/
theorem inWaitsOrFaultsWithoutInput : Obligations.InWaitsOrFaultsWithoutInput := by
  refine ⟨fun d s hw hf hd hq => ?_, fun d s hbad => ?_⟩
  · have hchecks : firstOf (checks s (.inp d)) = none := checks_none hw hf (firstOf_operandFaults.mpr hd)
    exact exec_of_needs hchecks (by rw [needsInput_iff.mpr ⟨d, rfl, hchecks, hq⟩, Bool.true_or])
  · obtain ⟨r, n, he⟩ := exec_faults_of_not_ok (i := .inp d) rfl hbad
    exact ⟨_, he, rfl, rfl⟩

/-! ### out -/

/-- Settles O23: while OUTPUT accepts `out` commits, and what it commits is the one message appended. -/
theorem outSendsValue : Obligations.OutSendsValue := by
  intro a s hf ha hready
  have hchecks : firstOf (checks s (.out a)) = none := checks_none rfl hf (firstOf_operandFaults.mpr ha)
  have hn : (needsInput (.out a) s || needsOutput (.out a) s) = false := by
    rw [needsOutput_out hchecks, hready]
    rfl
  exact ⟨_, s.operandValue a (s.addr 0 a), exec_of_not_needs hchecks hn, rfl, rfl, grow_read s _, rfl, rfl,
    ⟨rfl, rfl⟩, rfl, rfl, rfl, rfl, rfl⟩

/-- Settles O24: `out` reaches the port only when its checks pass, and fault entry leaves the channel. -/
theorem outWaitsOrFaultsWithoutOutput : Obligations.OutWaitsOrFaultsWithoutOutput := by
  refine ⟨fun a s hf ha hready => ?_, fun a s hbad => ?_⟩
  · have hchecks : firstOf (checks s (.out a)) = none := checks_none rfl hf (firstOf_operandFaults.mpr ha)
    exact exec_of_needs hchecks (by rw [needsOutput_iff.mpr ⟨a, rfl, hchecks, hready⟩, Bool.or_true])
  · obtain ⟨r, n, he⟩ := exec_faults_of_not_ok (i := .out a) rfl hbad
    exact ⟨_, he, rfl, rfl⟩

/-! ### The port traffic of a step -/

/-- A step leaves the state (no step is enabled, or a wait), enters a fault, or commits an instruction whose port is
ready. -/
theorem step_eq_cases {s t : State} (h : step s = .next t) :
    t = s ∨ (∃ r n, t = faultState r (s.grow n)) ∨
    ∃ i, s.decodeAt = .ok i ∧ firstOf (checks s i) = none ∧ needsInput i s = false ∧ needsOutput i s = false ∧
      t = commit s i := by
  by_cases hr : s.run = .running
  · rcases step_cases hr with ⟨r, n, -, -, hs⟩ | ⟨i, hi, -, hs, hc, -, -⟩ <;> rw [hs] at h
    · cases h
      exact .inr (.inl ⟨r, n, rfl⟩)
    · cases hw : needsInput i s || needsOutput i s with
      | true =>
        rw [exec_of_needs hc hw] at h
        cases h
        exact .inl rfl
      | false =>
        rw [exec_of_not_needs hc hw] at h
        cases h
        obtain ⟨hin, hout⟩ := Bool.or_eq_false_iff.mp hw
        exact .inr (.inr ⟨i, hi, hc, hin, hout, rfl⟩)
  · rw [step_terminal hr] at h
    cases h
    exact .inl rfl

/-- A completed step takes the oldest input value for `in`, and no value for another instruction (R109). -/
theorem commit_inQ_cases {s : State} {i : Instr} (hc : firstOf (checks s i) = none) (hin : needsInput i s = false) :
    (commit s i).inQ = s.inQ ∨ ∃ d x, i = .inp d ∧ s.inQ = x :: (commit s i).inQ := by
  cases i with
  | inp d =>
    rw [needsInput_inp hc] at hin
    cases hq : s.inQ with
    | nil => simp [hq] at hin
    | cons x q => exact .inr ⟨d, x, rfl, by rw [commit_inp hq]⟩
  | jt | jf => simp only [commit]; split <;> exact .inl rfl
  | _ => exact .inl rfl

/-- A completed step appends the operand's value for `out`, Exit for `hlt`, and no message for another instruction
(R110, R112). -/
theorem commit_outQ_cases (s : State) (i : Instr) :
    (commit s i).outQ = s.outQ ∨
    (∃ a, i = .out a ∧ (commit s i).outQ = s.outQ ++ [.data (s.operandValue a (s.addr 0 a))]) ∨
    (i = .hlt ∧ (commit s i).outQ = s.outQ ++ [.exit]) := by
  cases i with
  | out a => exact .inr (.inl ⟨a, rfl, rfl⟩)
  | hlt => exact .inr (.inr ⟨rfl, rfl⟩)
  | jt | jf => simp only [commit]; split <;> exact .inl rfl
  | _ => exact .inl rfl

theorem commit_outReady (s : State) (i : Instr) : (commit s i).outReady = s.outReady := by
  cases i with
  | jt | jf => simp only [commit]; split <;> rfl
  | _ => rfl

theorem step_outReady {s t : State} (h : step s = .next t) : t.outReady = s.outReady := by
  cases stepEnd_of_step h with
  | terminal | waits | faults => rfl
  | commits i => exact commit_outReady s i

/-- Settles O42: only a commit touches a channel, and it does so for `in`, `out` and `hlt` alone. -/
theorem portTrafficOfAStep : Obligations.PortTrafficOfAStep := by
  intro s t h
  refine ⟨?_, ?_, step_outReady h, step_exited h, step_cfg h⟩
  · rcases step_eq_cases h with rfl | ⟨r, n, rfl⟩ | ⟨i, hi, hc, hin, -, rfl⟩
    · exact .inl rfl
    · exact .inl rfl
    · rcases commit_inQ_cases hc hin with hq | ⟨d, x, rfl, hq⟩
      · exact .inl hq
      · exact .inr ⟨d, x, hi, hq⟩
  · rcases step_eq_cases h with rfl | ⟨r, n, rfl⟩ | ⟨i, hi, hc, -, hout, rfl⟩
    · exact .inl rfl
    · exact .inl rfl
    · rcases commit_outQ_cases s i with hq | ⟨a, rfl, hq⟩ | ⟨rfl, hq⟩
      · exact .inl hq
      · have hready : s.outReady = true := by rwa [needsOutput_out hc, Bool.not_eq_false'] at hout
        exact .inr (.inl ⟨a, _, hi, hready, hq, rfl⟩)
      · exact .inr (.inr ⟨hi, rfl, hq⟩)

end Sys2Proof.Machine
end

section
/-! The statements about jt and jf: both jump or advance in memory grown for their two read operands, and differ in the
test of the first. -/

namespace Sys2Proof.Machine

/-! ### A jump or its fall-through -/

/-- Phase X of a conditional jump: the PC update, CAP's growth, and nothing else (R78, R91, R92). -/
theorem jump_or_advance_frame {s t : State} {n : Nat} {p : Prop} [Decidable p] {target : Word}
    (ht : t = if p then jumpTo target (s.grow n) else advance 3 (s.grow n)) :
    t.pc = (if p then target.toInt else s.pc + 3) ∧ KeepsMemory s t ∧ t.rb = s.rb ∧ KeepsStatus s t ∧
      KeepsChannels s t ∧ GrowsTo n s t := by
  by_cases hp : p
  · rw [if_pos hp] at ht ⊢
    subst ht
    exact ⟨rfl, grow_read s n, rfl, ⟨rfl, rfl⟩, ⟨rfl, rfl, rfl, rfl⟩, rfl, rfl⟩
  · rw [if_neg hp] at ht ⊢
    subst ht
    exact ⟨rfl, grow_read s n, rfl, ⟨rfl, rfl⟩, ⟨rfl, rfl, rfl, rfl⟩, rfl, rfl⟩

/-! ### jt and jf -/

/-- Settles O25: jt reads two operands and no port, so it commits, and it jumps when the first value is not 0. -/
theorem jtJumpsOnNonzero : Obligations.JtJumpsOnNonzero := by
  intro c g s hf hc hg
  have hchecks : firstOf (checks s (.jt c g)) = none := checks_none rfl hf (operandFaults_two hc hg)
  obtain ⟨hpc, hframe⟩ := jump_or_advance_frame (s := s) (t := commit s (.jt c g)) rfl
  rw [ite_not] at hpc
  exact ⟨_, exec_of_not_needs hchecks rfl, hpc, hframe⟩

/-- Settles O26: jf reads two operands and no port, so it commits, and it jumps when the first value is 0. -/
theorem jfJumpsOnZero : Obligations.JfJumpsOnZero := by
  intro c g s hf hc hg
  have hchecks : firstOf (checks s (.jf c g)) = none := checks_none rfl hf (operandFaults_two hc hg)
  exact ⟨_, exec_of_not_needs hchecks rfl, jump_or_advance_frame rfl⟩

end Sys2Proof.Machine
end

section
/-! The statements about lt and eq: both are `comparison` by a relation of the two integers, and it always stores, since
no result of it overflows. -/

namespace Sys2Proof.Machine

/-! ### Phase X of lt and eq, once the checks of phases F and A pass -/

section

variable {a b d : Operand} {s : State} (hw : d.mode.writable = true) (hf : s.fetchOk = true)
  (ha : s.operandOk 0 a = true) (hb : s.operandOk 1 b = true) (hd : s.operandOk 2 d = true)

include hw hf ha hb hd

/-- The word of the test's truth is stored: no result of a comparison stops the step (R94, R95). -/
theorem comparison_ok (test : Word → Word → Bool) :
    comparison test a b d s =
      .next (advance 4 ((s.grow (s.top [s.addr 0 a, s.addr 1 b, s.addr 2 d])).write (s.addr 2 d)
        (boolWord (test (s.operandValue a (s.addr 0 a)) (s.operandValue b (s.addr 1 b)))))) := by
  simp only [comparison, phasesRRW_ok hw hf ha hb hd, grow_operandValue]

/-- Exactly 1 or 0 is stored at the write address, as the relation holds of the operand values or not, and the rest of
the state is framed (R82, R94 to R96). -/
theorem comparison_stores_one_or_zero (r : Int → Int → Prop) [DecidableRel r] (hm : s.memOk = true) (hc : 1 ≤ s.cap) :
    ∃ t, comparison (fun x y => decide (r x.toInt y.toInt)) a b d s = .next t ∧
      (t.read (s.addr 2 d)).toInt = (if r (s.val 0 a) (s.val 1 b) then 1 else 0) ∧ KeepsMemoryBut (s.addr 2 d) s t ∧
      t.pc = s.pc + 4 ∧ t.rb = s.rb ∧ KeepsStatus s t ∧ KeepsChannels s t ∧
      GrowsTo (s.top [s.addr 0 a, s.addr 1 b, s.addr 2 d]) s t := by
  obtain ⟨hread, hframe⟩ := store_advance_frame hm hc (addr_dst_le_top s a b d) rfl
  refine ⟨_, comparison_ok hw hf ha hb hd _, ?_, hframe⟩
  rw [hread, boolWord_toInt]
  exact if_congr decide_eq_true_iff rfl rfl

end

/-! ### lt and eq -/

/-- Settles O19: lt is `comparison` by the signed order. -/
theorem ltStoresOneOrZero : Obligations.LtStoresOneOrZero :=
  fun _ _ _ _ hm hc hw hf ha hb hd => comparison_stores_one_or_zero hw hf ha hb hd (· < ·) hm hc

/-- Settles O20: eq is `comparison` by equality. -/
theorem eqStoresOneOrZero : Obligations.EqStoresOneOrZero :=
  fun _ _ _ _ hm hc hw hf ha hb hd => comparison_stores_one_or_zero hw hf ha hb hd (· = ·) hm hc

end Sys2Proof.Machine
end

section
/-! The statements about arb: phase X of the one instruction that writes RB, which either commits the exact sum or
enters ARITHMETIC_OVERFLOW. -/

namespace Sys2Proof.Machine

/-! ### Phase X of arb, once the checks of phases F and A pass -/

section

variable {a : Operand} {s : State} (hf : s.fetchOk = true) (ha : s.operandOk 0 a = true)

include hf ha

theorem execArb_of_inI64 (hr : inI64 (s.rb.toInt + s.val 0 a) = true) :
    execArb a s =
      .next (advance 2 (setRb (BitVec.ofInt 64 (s.rb.toInt + s.val 0 a)) (s.grow (s.top [s.addr 0 a])))) := by
  simp only [State.val] at hr
  simp only [execArb, phasesR_ok hf ha, grow_operandValue, grow_rb, toWord?_of_inI64 hr, State.val]

theorem execArb_of_not_inI64 (hr : inI64 (s.rb.toInt + s.val 0 a) = false) :
    execArb a s = .next (faultState
      (recordAt s .arithmeticOverflow (some s.instrWord) none (some (s.rb.toInt + s.val 0 a)))
      (s.grow (s.top [s.addr 0 a]))) := by
  simp only [State.val] at hr
  simp only [execArb, phasesR_ok hf ha, grow_operandValue, grow_rb, toWord?_of_not_inI64 hr, grow_instrWord,
    raise_eq_faultState, State.val]

end

/-! ### arb -/

/-- Settles O27: the sum is in i64, so the word committed to RB reads as the sum, and growth changes no cell. -/
theorem arbAddsToRelativeBase : Obligations.ArbAddsToRelativeBase :=
  fun _ s hf ha hr => ⟨_, execArb_of_inI64 hf ha hr, toInt_ofInt_of_inI64 hr, grow_read s _, rfl, ⟨rfl, rfl⟩,
    ⟨rfl, rfl, rfl, rfl⟩, rfl, rfl⟩

/-- Settles O28: no word holds the sum, so it is in the fault's record alone, and fault entry keeps RB. -/
theorem arbOverflowFaults : Obligations.ArbOverflowFaults :=
  fun _ s hf ha hr => ⟨_, execArb_of_not_inI64 hf ha hr, rfl, rfl, rfl, grow_read s _, rfl, ⟨rfl, rfl, rfl, rfl⟩,
    rfl, rfl⟩

end Sys2Proof.Machine
end

section
/-! The statement about hlt: phase X of the one instruction that halts and sends Exit. It has no operand and waits at no
port, so the fetch's checks are all that can stop it. -/

namespace Sys2Proof.Machine

/-- Once the fetch's checks pass, hlt halts in memory grown for the fetch span alone (R73, R99). -/
theorem exec_hlt_of_fetchOk {s : State} (hf : s.fetchOk = true) :
    exec .hlt s = .next (halt (s.grow (s.pc + 3).toNat)) :=
  have hchecks : firstOf (checks s .hlt) = none := checks_none rfl hf rfl
  exec_of_not_needs hchecks rfl

/-- Settles O29: hlt commits a halt with its one Exit, and the growth before it changes no cell. -/
theorem hltHaltsAndSendsExit : Obligations.HltHaltsAndSendsExit := by
  intro s hf
  have hkeeps : KeepsMemory s (halt (s.grow (s.pc + 3).toNat)) := fun a => by rw [halt_read, grow_read]
  exact ⟨_, exec_hlt_of_fetchOk hf, rfl, rfl, rfl, rfl, hkeeps, rfl, rfl, rfl, rfl, rfl, rfl⟩

end Sys2Proof.Machine
end

section
/-! The statements about fault entry: what it leaves unchanged, and that its record is the first of R105's list. -/

namespace Sys2Proof.Machine

/-- Settles O36: fault entry follows growth alone, and growth changes no value an address reads. -/
theorem faultsArePrecise : Obligations.FaultsArePrecise := by
  intro s t hr h ht
  obtain ⟨r, n, -, -, rfl⟩ := step_faulted_inv hr h ht
  exact ⟨rfl, rfl, grow_read s n, ⟨rfl, rfl, rfl, rfl⟩, rfl, le_growTo s.cap n, fun _ => grow_get_new,
    image_eq_none (by rw [ht]; decide)⟩

/-- A Running worker none of whose checks fails waits or commits, and neither is fault entry (R105). -/
theorem step_of_no_fault {s : State} (hr : s.run = .running) (hf : firstFault s = none) :
    ∃ t, step s = .next t ∧ t.run ≠ .faulted ∧ t.fault = s.fault := by
  obtain ⟨t, h⟩ := step_next s
  refine ⟨t, h, ?_⟩
  cases stepEnd_of_step h with
  | terminal hn => exact absurd hr hn
  | waits => exact ⟨by rw [hr]; decide, rfl⟩
  | faults r n _ hfault => cases hf.symm.trans hfault
  | commits i =>
    refine ⟨?_, commit_fault⟩
    rw [commit_run, hr]
    split <;> decide

/-- Settles O38: the step enters the fault of its first failing check, or none, and no action changes RUN or FAULT
after fault entry. -/
theorem faultPriority : Obligations.FaultPriority := by
  refine fun s hr => ⟨fun r => stepFaults_of_firstFault hr, step_of_no_fault hr, fun t as _ ht => ?_⟩
  have hstatus := runActions_status_of_terminal as (s := t) (by rw [ht]; decide)
  exact ⟨(congrArg Prod.fst hstatus).trans ht, congrArg Prod.snd hstatus⟩

end Sys2Proof.Machine
end

section
/-! The statements about the host's side of the channels: the messages it receives, the exited flag, and the worker that
is destroyed. -/

namespace Sys2Proof.Machine

/-! ### Properties that every action keeps -/

/-- A test that every action keeps is kept by every list of actions. -/
theorem runActions_keeps {test : State → Bool} (hact : ∀ a s, test s = true → test (act a s) = true)
    (as : List Action) {s : State} (hs : test s = true) : test (runActions as s) = true := by
  induction as generalizing s with
  | nil => exact hs
  | cons a as ih => exact ih (hact a s hs)

/-! ### The messages of a run (R112) -/

/-- The messages that a worker has sent so far are Data, and then one Exit when it has halted. -/
def TranscriptOk (run : RunState) (q : List Message) : Prop :=
  if run = .halted then endsInExit q = true else onlyData q = true

/-- What the host takes in a move of the environment, and what is left, is what was there. -/
theorem receivedBy_env_append (e : EnvEvent) (s : State) :
    receivedBy (.env e) s ++ (applyEvent e s).outQ = s.outQ := by
  cases e with
  | send v => rcases hostSend_cases v s with h | h <;> rw [applyEvent, h] <;> rfl
  | recv =>
    rcases hostRecv_cases s with ⟨hq, h⟩ | ⟨v, q, hq, h⟩ | ⟨q, hq, h⟩ <;> rw [applyEvent, h, receivedBy, hq] <;> rfl
  | accept b => rfl

/-- A step sends Data while the worker runs, or Exit as it halts. -/
theorem step_keeps_transcriptOk {s t : State} (h : step s = .next t) {sent : List Message}
    (hs : TranscriptOk s.run (sent ++ s.outQ)) : TranscriptOk t.run (sent ++ t.outQ) := by
  unfold TranscriptOk at hs ⊢
  rcases step_outQ_cases h with ⟨hq, hrun⟩ | ⟨v, hq, hr, ht⟩ | ⟨hr, ht, hq⟩
  · rw [hq]
    simpa only [hrun] using hs
  · rw [if_neg (by rw [hr]; decide)] at hs
    rw [if_neg ht, hq, ← List.append_assoc]
    exact onlyData_append hs
  · rw [if_neg (by rw [hr]; decide)] at hs
    rw [if_pos ht, hq, ← List.append_assoc]
    exact endsInExit_append hs

theorem act_keeps_transcriptOk (a : Action) {s : State} {sent : List Message}
    (hs : TranscriptOk s.run (sent ++ s.outQ)) :
    TranscriptOk (act a s).run (sent ++ (receivedBy a s ++ (act a s).outQ)) := by
  cases a with
  | engine =>
    obtain ⟨t, ht⟩ := step_next s
    rw [act_engine ht]
    exact step_keeps_transcriptOk ht hs
  | env e =>
    rw [act, receivedBy_env_append, applyEvent_run]
    exact hs

theorem runActions_keeps_transcriptOk (as : List Action) {s : State} {sent : List Message}
    (hs : TranscriptOk s.run (sent ++ s.outQ)) :
    TranscriptOk (runActions as s).run (sent ++ (received as s ++ (runActions as s).outQ)) := by
  induction as generalizing s sent with
  | nil => exact hs
  | cons a as ih =>
    rw [received, runActions, List.append_assoc, ← List.append_assoc sent]
    refine ih ?_
    rw [List.append_assoc]
    exact act_keeps_transcriptOk a hs

theorem load_run_outQ {cfg : Config} {ws : List Word} {s : State} (h : load cfg ws = some s) :
    s.run = .running ∧ s.outQ = [] := by
  unfold load at h
  split_ifs at h
  cases h
  exact ⟨rfl, rfl⟩

/-- Settles O43, by induction on the actions: each keeps the shape of the messages received and still to be received,
and a loaded worker has sent none. -/
theorem exitOnceAndLast : Obligations.ExitOnceAndLast := by
  intro cfg ws s as hload
  obtain ⟨hr, hq⟩ := load_run_outQ hload
  have hsent : TranscriptOk (runActions as s).run (received as s ++ (runActions as s).outQ) :=
    runActions_keeps_transcriptOk as (sent := []) (by rw [hr, hq]; rfl)
  constructor <;> intro hrun
  · rw [TranscriptOk, if_pos hrun] at hsent
    exact endsInExit_iff.mp hsent
  · rw [TranscriptOk, if_neg hrun] at hsent
    exact onlyData_iff.mp hsent

/-! ### A destroyed worker (R126) -/

theorem hostSend_of_destroyed {s : State} (h : destroyed s = true) (v : Word) : (hostSend v s).2 = s := by
  obtain ⟨hr, -⟩ := destroyed_iff.mp h
  exact (send_of_not_running hr v).trans (if_pos (.inr h))

theorem hostRecv_of_empty {s : State} (h : s.outQ = []) : hostRecv s = (.blocked, s) := by
  rw [hostRecv, h]

theorem act_keeps_destroyed (a : Action) {s : State} (h : destroyed s = true) : destroyed (act a s) = true := by
  obtain ⟨hr, -, hout⟩ := destroyed_iff.mp h
  cases a with
  | engine => rwa [act_engine (step_terminal hr)]
  | env e =>
    cases e with
    | send v => rwa [act, applyEvent, hostSend_of_destroyed h]
    | recv => rwa [act, applyEvent, hostRecv_of_empty hout]
    | accept b => exact h

/-- Settles O44: the answers of send by RUN, and no action revives a destroyed worker or fills its channels. -/
theorem sendAfterExitIsDiscarded : Obligations.SendAfterExitIsDiscarded := by
  refine ⟨fun v s => ⟨?_, ?_, ?_, ?_⟩, ?_, fun _ as => runActions_keeps (fun a _ => act_keeps_destroyed a) as⟩
  · exact fun hr => hostSend_of_halted hr v
  · exact fun hr => hostSend_of_running hr v
  · exact fun hr => congrArg Prod.fst (hostSend_of_faulted hr v)
  · exact fun hd => hostSend_of_destroyed hd v
  · exact fun s hr hin hout => destroyed_iff.mpr ⟨hr, hin, hout⟩

/-! ### recv and the exited flag (R113) -/

theorem hostRecv_of_data {s : State} {v : Word} {q : List Message} (h : s.outQ = .data v :: q) :
    hostRecv s = (.value v, { s with outQ := q }) := by
  rw [hostRecv, h]

theorem hostRecv_of_exit {s : State} {q : List Message} (h : s.outQ = .exit :: q) :
    hostRecv s = (.nothing, { s with outQ := q, exited := true }) := by
  rw [hostRecv, h]

/-- The flag after an action: it was set, or the host has just received Exit. -/
theorem hasExited_act_iff {a : Action} {s : State} :
    hasExited (act a s) = true ↔ hasExited s = true ∨ a = .env .recv ∧ ∃ q, s.outQ = .exit :: q := by
  cases a with
  | engine =>
    obtain ⟨t, ht⟩ := step_next s
    simp [act_engine ht, hasExited, step_exited ht]
  | env e =>
    cases e with
    | send v => rcases hostSend_cases v s with h | h <;> simp [act, applyEvent, h, hasExited, queueInput]
    | recv =>
      rcases hostRecv_cases s with ⟨hq, h⟩ | ⟨v, q, hq, h⟩ | ⟨q, hq, h⟩ <;> simp [act, applyEvent, h, hq, hasExited]
    | accept b => simp [act, applyEvent, hasExited]

/-- Settles O45: the answers of recv by the oldest message, and of all actions only a recv of Exit changes the flag. -/
theorem recvAndExitedFlag : Obligations.RecvAndExitedFlag := by
  refine ⟨fun v s hr => hostSend_of_running hr v, fun _ _ _ => hostRecv_of_data, fun _ _ => hostRecv_of_exit,
    fun _ => hostRecv_of_empty, fun s a hs ha => ?_,
    fun _ as => runActions_keeps (fun _ _ h => hasExited_act_iff.mpr (.inl h)) as⟩
  exact (hasExited_act_iff.mp ha).resolve_left (Bool.eq_false_iff.mp hs)

end Sys2Proof.Machine
end

section
/-! The statement about several workers (R111, R116): what an action of one worker and a spawn do to the list of workers. -/

namespace Sys2Proof.Machine

/-! ### An action of worker `k` -/

theorem actAt_length (k : Nat) (a : Action) (ws : Workers) : (actAt k a ws).length = ws.length := by
  unfold actAt
  split
  · rfl
  · exact List.length_set

theorem actAt_getElem?_self (k : Nat) (a : Action) (ws : Workers) : (actAt k a ws)[k]? = ws[k]?.map (act a) := by
  unfold actAt
  split
  · next h => rw [h]; rfl
  · next s h => rw [List.getElem?_set_self (List.getElem?_eq_some_iff.mp h).1, h]; rfl

theorem actAt_getElem?_of_ne {k j : Nat} (h : j ≠ k) (a : Action) (ws : Workers) : (actAt k a ws)[j]? = ws[j]? := by
  unfold actAt
  split
  · rfl
  · exact List.getElem?_set_ne h.symm

/-! ### A spawn -/

/-- A spawn puts the worker that the text loads, if any, behind the workers that were there. -/
theorem spawn_eq_append (cfg : Config) (p l : List Char) (ws : Workers) :
    spawn cfg p l ws = ws ++ (loadText cfg p).toList := by
  unfold spawn
  cases loadText cfg p with
  | none => exact (List.append_nil ws).symm
  | some s => rfl

theorem spawn_getElem?_of_lt {cfg : Config} {p l : List Char} {ws : Workers} {j : Nat} (h : j < ws.length) :
    (spawn cfg p l ws)[j]? = ws[j]? := by
  rw [spawn_eq_append, List.getElem?_append_left h]

theorem spawn_getElem?_length (cfg : Config) (p l : List Char) (ws : Workers) :
    (spawn cfg p l ws)[ws.length]? = loadText cfg p := by
  rw [spawn_eq_append, List.getElem?_append_right le_rfl, Nat.sub_self]
  cases loadText cfg p <;> rfl

/-- Settles O58: an action sets one entry of the list of workers, and a spawn appends one. -/
theorem workersShareNothing : Obligations.WorkersShareNothing :=
  ⟨fun k _ a ws => ⟨fun h => actAt_getElem?_of_ne h a ws, actAt_getElem?_self k a ws, actAt_length k a ws⟩,
    fun cfg p l _ ws _ => ⟨spawn_getElem?_of_lt, rfl, spawn_getElem?_length cfg p l ws⟩⟩

end Sys2Proof.Machine
end

section
/-! The statement about the load of words (R121, R122): the state it gives, written once, and its observations. -/

namespace Sys2Proof.Machine

/-- The state of R122's table: `State.reset` but for the words, their number and MAX_CAPACITY. -/
def loaded (cfg : Config) (ws : List Word) : State :=
  { State.reset with mem := Memory.ofWords 0 ws, cap := ws.length, cfg := cfg }

theorem load_nil (cfg : Config) : load cfg [] = none := rfl

theorem load_eq_loaded {cfg : Config} {ws : List Word} (hne : ws ≠ [])
    (hcap : ∀ m, cfg.maxCapacity = some m → ws.length ≤ m) : load cfg ws = some (loaded cfg ws) := by
  have hall : (cfg.maxCapacity.all fun m => decide (ws.length ≤ m)) = true := by
    simpa only [Option.all_eq_true, decide_eq_true_eq] using hcap
  rw [load, if_neg hne, if_pos hall, loaded]

/-- A word of the program at its address, and 0 from CAP on (R34). -/
theorem loaded_read (cfg : Config) (ws : List Word) (a : Nat) : (loaded cfg ws).read a = ws.getD a 0 := by
  unfold State.read
  split
  · exact Memory.get_ofWords 0 a ws (Nat.zero_le a)
  · next h => exact (List.getD_eq_default ws 0 (not_lt.mp h)).symm

theorem loaded_memOk (cfg : Config) (ws : List Word) : (loaded cfg ws).memOk = true :=
  Bool.and_eq_true_iff.mpr ⟨Memory.wfFrom_ofWords 0 ws, Memory.below_ofWords 0 _ ws (Nat.zero_add _).le⟩

theorem loaded_capOk {cfg : Config} {ws : List Word} (hne : ws ≠ [])
    (hcap : ∀ m, cfg.maxCapacity = some m → ws.length ≤ m) : (loaded cfg ws).capOk = true := by
  simp only [State.capOk, Bool.and_eq_true, decide_eq_true_eq, Option.all_eq_true]
  exact ⟨List.length_pos_iff.mpr hne, hcap⟩

theorem loaded_inv {cfg : Config} {ws : List Word} (hne : ws ≠ [])
    (hcap : ∀ m, cfg.maxCapacity = some m → ws.length ≤ m) : (loaded cfg ws).inv = true :=
  inv_iff.mpr ⟨loaded_memOk cfg ws, loaded_capOk hne hcap, pcOk_iff.mpr fun _ _ _ => rfl, rfl, rfl⟩

/-- Settles O48: a load within the bound gives `loaded`, which reads the words and meets each part of the invariant. -/
theorem loadGivesResetState : Obligations.LoadGivesResetState :=
  ⟨fun cfg ws hne hcap => ⟨loaded cfg ws, load_eq_loaded hne hcap, loaded_read cfg ws, rfl, rfl, rfl, rfl, rfl, rfl,
    rfl, rfl, rfl, loaded_inv hne hcap⟩, load_nil⟩

end Sys2Proof.Machine
end

section
/-! The statements about program text (R123): the rule of commas, the value of one item, and what is refused. -/

namespace Sys2Proof.Machine

/-! ### Commas -/

theorem parseProgram_append_comma (t u : List Char) : parseProgram (t ++ ',' :: u) =
    (parseProgram t).bind fun vs => (parseProgram u).map fun ws => vs ++ ws := by
  rw [parseProgram, splitCommas_append, parsePieces_append, ← parseProgram, ← parseProgram]

/-- Settles O49: the pieces of `t,u` are those of `t` and then those of `u`. -/
theorem loadTextSplitsAtCommas : Obligations.LoadTextSplitsAtCommas := by
  intro t u
  rw [parseProgram_append_comma]
  refine ⟨fun vs ws ht hu => ?_, fun ht => ?_, fun hu => ?_⟩
  · rw [ht, hu]
    rfl
  · rw [ht]
    rfl
  · rw [hu]
    exact Option.bind_fun_none (parseProgram t)

/-- A text without a comma is one piece. -/
theorem parseProgram_of_no_comma {t : List Char} (h : ∀ c ∈ t, c ≠ ',') :
    parseProgram t = (parseItem (trim t)).map fun w => [w] := by
  rw [parseProgram, splitCommas_of_no_comma t h, parsePieces]
  cases parseItem (trim t) <;> rfl

theorem ne_comma_of_isSpace {c : Char} (h : isSpace c = true) : c ≠ ',' := by
  rintro rfl
  exact absurd h (by decide)

/-! ### One item -/

/-- The text of an item: an optional '-' and digits (R123). -/
def itemText (neg : Bool) (ds : List Char) : List Char := (if neg then ['-'] else []) ++ ds

/-- The decimal value of digits. -/
def decimalValue (ds : List Char) : Int := ds.foldl (fun m c => 10 * m + (c.toNat - 48)) 0

theorem parseDigits_eq {ds : List Char} (hne : ds ≠ []) (hds : ∀ c ∈ ds, c.isDigit = true) :
    ∃ n : Nat, parseDigits ds = some n ∧ (n : Int) = decimalValue ds :=
  ⟨_, (if_neg hne).trans (digitsFrom_eq 0 ds hds), foldl_digits_cast 0 ds hds⟩

theorem parseItem_itemText (neg : Bool) {ds : List Char} (hne : ds ≠ []) (hds : ∀ c ∈ ds, c.isDigit = true) :
    parseItem (itemText neg ds) = toWord? (if neg then -decimalValue ds else decimalValue ds) := by
  obtain ⟨n, hn, hv⟩ := parseDigits_eq hne hds
  rw [← hv]
  cases neg with
  | true => simp [itemText, parseItem, hn]
  | false =>
    obtain ⟨c, t, rfl⟩ := List.exists_cons_of_ne_nil hne
    have hc : c ≠ '-' := by
      rintro rfl
      exact absurd (hds '-' List.mem_cons_self) (by decide)
    simp [itemText, parseItem, hc, hn]

/-- The characters of an item are no white space and no comma. -/
theorem not_space_and_ne_comma_of_mem_itemText {neg : Bool} {ds : List Char}
    (hds : ∀ c ∈ ds, c.isDigit = true) {c : Char} (hc : c ∈ itemText neg ds) : isSpace c = false ∧ c ≠ ',' := by
  rcases List.mem_append.mp hc with hc | hc
  · cases neg with
    | true =>
      rw [List.mem_singleton.mp hc]
      decide
    | false => exact absurd hc List.not_mem_nil
  · refine ⟨digit_not_space (hds c hc), ?_⟩
    rintro rfl
    exact absurd (hds ',' hc) (by decide)

/-- The one-word program of an item's value, refused outside i64 (R123). -/
theorem toWord?_map_singleton (v : Int) : ((toWord? v).map fun w => [w]) =
    if -2 ^ 63 ≤ v ∧ v < 2 ^ 63 then some [BitVec.ofInt 64 v] else none := by
  rw [toWord?, apply_ite (Option.map _)]
  simp only [inI64, Bool.and_eq_true, decide_eq_true_eq, Option.map_some, Option.map_none]

/-- Settles O50: trimming leaves the item, its digits are read as their decimal value, and `toWord?` tests the range. -/
theorem loadItemHasItsDecimalValue : Obligations.LoadItemHasItsDecimalValue := by
  intro pre post ds neg hpre hpost hne hds
  have hitem : ∀ c ∈ itemText neg ds, isSpace c = false ∧ c ≠ ',' :=
    fun _ => not_space_and_ne_comma_of_mem_itemText hds
  have hcomma : ∀ c ∈ pre ++ itemText neg ds ++ post, c ≠ ',' := by
    simp only [List.mem_append]
    rintro c ((hc | hc) | hc)
    · exact ne_comma_of_isSpace (hpre c hc)
    · exact (hitem c hc).2
    · exact ne_comma_of_isSpace (hpost c hc)
  have htrim : trim (pre ++ itemText neg ds ++ post) = itemText neg ds :=
    trim_item hpre hpost (List.append_ne_nil_of_right_ne_nil _ hne) fun c hc => (hitem c hc).1
  calc parseProgram (pre ++ itemText neg ds ++ post)
    _ = (parseItem (itemText neg ds)).map fun w => [w] := by rw [parseProgram_of_no_comma hcomma, htrim]
    _ = (toWord? (if neg then -decimalValue ds else decimalValue ds)).map fun w => [w] := by
        rw [parseItem_itemText neg hne hds]
    _ = _ := toWord?_map_singleton _

/-! ### Refused text -/

/-- Only white space, an item and white space give a piece's value. -/
theorem itemForm_of_parseItem_trim {t : List Char} {w : Word} (h : parseItem (trim t) = some w) :
    ∃ (pre post ds : List Char) (neg : Bool), (∀ c ∈ pre, isSpace c = true) ∧ (∀ c ∈ post, isSpace c = true) ∧
      ds ≠ [] ∧ (∀ c ∈ ds, c.isDigit = true) ∧ t = pre ++ itemText neg ds ++ post := by
  obtain ⟨pre, post, hpre, hpost, ht⟩ := trim_split t
  obtain ⟨neg, ds, hne, hds, hitem⟩ := shape_of_parseItem h
  rw [hitem] at ht
  exact ⟨pre, post, ds, neg, hpre, hpost, hne, hds, ht⟩

/-- A character outside the grammar spoils its piece, and so the text. -/
theorem parseProgram_of_foreign_char {t : List Char} {c : Char} (hc : c ∈ t) (hdigit : c.isDigit = false)
    (hminus : c ≠ '-') (hcomma : c ≠ ',') (hspace : isSpace c = false) : parseProgram t = none := by
  obtain ⟨p, hp, hcp⟩ := mem_splitCommas hc hcomma
  exact parsePieces_none hp (parseItem_none (mem_trim hcp hspace) hdigit hminus)

theorem trim_of_all_space {t : List Char} (h : ∀ c ∈ t, isSpace c = true) : trim t = [] := by
  rw [trim, List.dropWhile_eq_nil_iff.mpr h]
  rfl

/-- Settles O51: a piece with a value has the form of an item, no piece holds a foreign character, and a blank text is
one empty piece. -/
theorem loadRefusesOtherText : Obligations.LoadRefusesOtherText := by
  refine fun t => ⟨fun hcomma hform => ?_, ?_, fun hspace => ?_⟩
  · rw [parseProgram_of_no_comma hcomma]
    cases h : parseItem (trim t) with
    | none => rfl
    | some w => exact absurd (itemForm_of_parseItem_trim h) hform
  · rintro ⟨c, hc, hdigit, hminus, hcomma, hspace⟩
    exact parseProgram_of_foreign_char hc hdigit hminus hcomma hspace
  · rw [parseProgram_of_no_comma fun c hc => ne_comma_of_isSpace (hspace c hc), trim_of_all_space hspace]
    rfl

end Sys2Proof.Machine
end
